-- ==== Sys2Proof/Word.lean ====
section
/-! DEFINITION. The value types of the block (00_scope.md R5, R7): every value is an unsigned
number of a stated width, and a converter width is a number from 1 to 8. -/

namespace Sys2Proof

/-- R7 `Chk`: a value of the 30-bit checksum accumulator. -/
abbrev Chk := BitVec 30

/-- R7 `Sym`: one 5-bit symbol, 0 to 31 (the library has a `Sym` of its own). -/
abbrev Sym5 := BitVec 5

/-- R7 `Byte`: one 8-bit value, 0 to 255. -/
abbrev Byte := BitVec 8

/-- R60: a command is one 16-bit word. -/
abbrev CmdWord := BitVec 16

/-- R62: a width field of CV.CFG, 4 bits, so 0 to 15 can be written. -/
abbrev WidthField := BitVec 4

/-- R7 `Width`: a legal converter width, `MINW` = 1 to `MAXW` = 8 (R4, R111). Building one is the
checked constructor that R111 speaks of, so `convert_bits` has no value for any other width. -/
structure Width where
  val : Nat
  pos : 1 ≤ val
  le_eight : val ≤ 8
deriving DecidableEq, Repr

/-- The width `n`, when `n` is legal (R111). -/
def Width.ofNat? (n : Nat) : Option Width :=
  if h : 1 ≤ n ∧ n ≤ 8 then some ⟨n, h.1, h.2⟩ else none

end Sys2Proof
end

