-- ==== Sys2Proof/Syntax.lean ====
section
/-! DEFINITION. The command set as syntax: the eleven commands (30_encoding.md R63), and the lines
of the assembler with its pseudo-instructions (R71, R72). -/

namespace Sys2Proof

/-- The two checksum variants (R1, R7): `a` is Variant-A (Bech32), `b` is Variant-B (Bech32m). -/
inductive Variant where
  | a
  | b
deriving DecidableEq, Repr

/-- The eleven commands of the block, one constructor per row of the opcode table (R63). The
operands are the fields of R62 after decoding, so no constructor can hold an operand that its
format cannot encode; CV.CFG holds its two width fields as written, legal or not (R66). -/
inductive Instr where
  | nop
  | ckInit
  | ckSym (sym : Sym5)
  | ckHrph (byte : Byte)
  | ckHrpl (byte : Byte)
  | ckGen (var : Variant)
  | ckVfy
  | ckRd
  | cvCfg (pad : Bool) (fromBits toBits : WidthField)
  | cvPush (byte : Byte)
  | cvEnd
deriving DecidableEq, Repr

/-- One line of assembly (R71): a command with the operands as numbers, in the order R71 writes
them, or one of the four pseudo-instructions of R72 (`CK.SEP`, `CK.HRP`, `CK.DATA`, `CV.DATA`).
An operand may be out of its range here; `AsmLine.wellFormed` is the assembler's check. -/
inductive AsmLine where
  | nop
  | ckInit
  | ckSym (sym : Nat)
  | ckHrph (byte : Nat)
  | ckHrpl (byte : Nat)
  | ckGen (var : Variant)
  | ckVfy
  | ckRd
  | cvCfg (fromBits toBits : Nat) (pad : Bool)
  | cvPush (byte : Nat)
  | cvEnd
  | ckSep
  | ckHrp (bytes : List Nat)
  | ckData (syms : List Nat)
  | cvData (bytes : List Nat)
deriving DecidableEq, Repr

end Sys2Proof
end

