-- ==== Sys2Proof/WellFormed.lean ====
section
/-! DEFINITION. What the syntax must satisfy before it is encoded. A command (`Instr`) carries its
operands at the width of their fields, so each is well formed (R62); an assembler line carries
plain numbers, and R71 has the assembler refuse an operand outside its range. -/

namespace Sys2Proof

/-- Every command is well formed: its operand types are the fields of R62. A width of 0 or 9 to 15
in CV.CFG is encodable and is no defect of the command (R66). -/
def Instr.wellFormed : Instr → Bool
  | .nop => true
  | .ckInit => true
  | .ckSym _ => true
  | .ckHrph _ => true
  | .ckHrpl _ => true
  | .ckGen _ => true
  | .ckVfy => true
  | .ckRd => true
  | .cvCfg _ _ _ => true
  | .cvPush _ => true
  | .cvEnd => true

/-- The operand ranges of R71: `sym` 0 to 31, `byte` 0 to 255, `from` and `to` 0 to 15 (the widths
0 and 9 to 15 are NOT refused). A pseudo-instruction is in range when every command it expands to
is (R72). -/
def AsmLine.wellFormed : AsmLine → Bool
  | .nop => true
  | .ckInit => true
  | .ckSym sym => sym < 32
  | .ckHrph byte => byte < 256
  | .ckHrpl byte => byte < 256
  | .ckGen _ => true
  | .ckVfy => true
  | .ckRd => true
  | .cvCfg fromBits toBits _ => fromBits < 16 && toBits < 16
  | .cvPush byte => byte < 256
  | .cvEnd => true
  | .ckSep => true
  | .ckHrp bytes => bytes.all (· < 256)
  | .ckData syms => syms.all (· < 32)
  | .cvData bytes => bytes.all (· < 256)

end Sys2Proof
end

