-- ==== Sys2Proof/Decode.lean ====
section
/-! DEFINITION. Decoding of the 16-bit command word (30_encoding.md R60 to R66), total and
rejecting by name; after it the encoder, written from the same format table (R61). -/

namespace Sys2Proof

/-- Why a word is illegal (R65): its opcode is reserved, or a bit its format marks "zero" is 1. -/
inductive DecodeError where
  | reservedOpcode (op : BitVec 4)
  | mustBeZero (op : BitVec 4)
deriving DecidableEq, Repr

/-- R60: the opcode, bits 15 to 12. -/
def opField (w : CmdWord) : BitVec 4 :=
  w.extractLsb' 12 4

/-- Format Z (R61): bits 11 to 0 are zero. -/
def formatZ (w : CmdWord) (i : Instr) : Except DecodeError Instr :=
  if w.extractLsb' 0 12 = 0#12 then .ok i else .error (.mustBeZero (opField w))

/-- Format S (R61): bits 11 to 5 are zero, `sym` is bits 4 to 0. -/
def formatS (w : CmdWord) (i : Sym5 → Instr) : Except DecodeError Instr :=
  if w.extractLsb' 5 7 = 0#7 then .ok (i (w.extractLsb' 0 5)) else .error (.mustBeZero (opField w))

/-- Format B (R61): bits 11 to 8 are zero, `byte` is bits 7 to 0. -/
def formatB (w : CmdWord) (i : Byte → Instr) : Except DecodeError Instr :=
  if w.extractLsb' 8 4 = 0#4 then .ok (i (w.extractLsb' 0 8)) else .error (.mustBeZero (opField w))

/-- R69: the operand bit 0 is Variant-A, 1 is Variant-B. -/
def variantOfBit (bit : Bool) : Variant :=
  if bit then .b else .a

/-- Format V (R61): bits 11 to 1 are zero, `var` is bit 0. -/
def formatV (w : CmdWord) (i : Variant → Instr) : Except DecodeError Instr :=
  if w.extractLsb' 1 11 = 0#11 then .ok (i (variantOfBit (w.getLsbD 0)))
  else .error (.mustBeZero (opField w))

/-- Format C (R61): bits 11 to 9 are zero, `pad` is bit 8, `from` bits 7 to 4, `to` bits 3 to 0. -/
def formatC (w : CmdWord) (i : Bool → WidthField → WidthField → Instr) :
    Except DecodeError Instr :=
  if w.extractLsb' 9 3 = 0#3 then
    .ok (i (w.getLsbD 8) (w.extractLsb' 4 4) (w.extractLsb' 0 4))
  else .error (.mustBeZero (opField w))

/-- R64: decoding, a total function of the word that reads no state. -/
def decode (w : CmdWord) : Except DecodeError Instr :=
  match (opField w).toNat with
  | 0 => formatZ w .nop
  | 1 => formatZ w .ckInit
  | 2 => formatS w .ckSym
  | 3 => formatB w .ckHrph
  | 4 => formatB w .ckHrpl
  | 5 => formatV w .ckGen
  | 6 => formatZ w .ckVfy
  | 7 => formatZ w .ckRd
  | 8 => formatC w .cvCfg
  | 9 => formatB w .cvPush
  | 10 => formatZ w .cvEnd
  | _ => .error (.reservedOpcode (opField w))

/-- R69: the operand bit of a variant. -/
def bitOfVariant : Variant → Bool
  | .a => false
  | .b => true

/-- The word of a command: the pattern string of its format (R61) with the opcode of R63, highest
field first. -/
def encode : Instr → CmdWord
  | .nop => 0x0#4 ++ 0#12
  | .ckInit => 0x1#4 ++ 0#12
  | .ckSym sym => 0x2#4 ++ 0#7 ++ sym
  | .ckHrph byte => 0x3#4 ++ 0#4 ++ byte
  | .ckHrpl byte => 0x4#4 ++ 0#4 ++ byte
  | .ckGen var => 0x5#4 ++ 0#11 ++ BitVec.ofBool (bitOfVariant var)
  | .ckVfy => 0x6#4 ++ 0#12
  | .ckRd => 0x7#4 ++ 0#12
  | .cvCfg pad fromBits toBits => 0x8#4 ++ 0#3 ++ BitVec.ofBool pad ++ fromBits ++ toBits
  | .cvPush byte => 0x9#4 ++ 0#4 ++ byte
  | .cvEnd => 0xA#4 ++ 0#12

/-- The mnemonic of a command (R63). -/
def mnemonic : Instr → String
  | .nop => "NOP"
  | .ckInit => "CK.INIT"
  | .ckSym _ => "CK.SYM"
  | .ckHrph _ => "CK.HRPH"
  | .ckHrpl _ => "CK.HRPL"
  | .ckGen _ => "CK.GEN"
  | .ckVfy => "CK.VFY"
  | .ckRd => "CK.RD"
  | .cvCfg _ _ _ => "CV.CFG"
  | .cvPush _ => "CV.PUSH"
  | .cvEnd => "CV.END"

/-- The mask of a command's row in R63's table: the opcode and the bits its format marks zero. -/
def rowMask : Instr → CmdWord
  | .nop => 0xFFFF#16
  | .ckInit => 0xFFFF#16
  | .ckSym _ => 0xFFE0#16
  | .ckHrph _ => 0xFF00#16
  | .ckHrpl _ => 0xFF00#16
  | .ckGen _ => 0xFFFE#16
  | .ckVfy => 0xFFFF#16
  | .ckRd => 0xFFFF#16
  | .cvCfg _ _ _ => 0xFE00#16
  | .cvPush _ => 0xFF00#16
  | .cvEnd => 0xFFFF#16

/-- The match value of a command's row in R63's table. -/
def rowMatch : Instr → CmdWord
  | .nop => 0x0000#16
  | .ckInit => 0x1000#16
  | .ckSym _ => 0x2000#16
  | .ckHrph _ => 0x3000#16
  | .ckHrpl _ => 0x4000#16
  | .ckGen _ => 0x5000#16
  | .ckVfy => 0x6000#16
  | .ckRd => 0x7000#16
  | .cvCfg _ _ _ => 0x8000#16
  | .cvPush _ => 0x9000#16
  | .cvEnd => 0xA000#16

/-- The command whose word has the bits `w`, of which the opcode table gives the low `nbits`: every
bit above `nbits` is 0. A command has one length, 16 bits (R60), so more bits are no command. -/
def decodeTableWord (nbits w : Nat) : Option Instr :=
  if nbits ≤ 16 then (decode (BitVec.ofNat 16 (w % 2 ^ nbits))).toOption else none

end Sys2Proof
end

