-- ==== Sys2Proof/Machine/Operands.lean ====
section
/-! DEFINITION. What a command does with an operand field before using it: the split of a prefix
byte (20_memory.md R43), the legal widths (41_bit_converter.md R111) and the value test (R112). -/

namespace Sys2Proof.Machine

/-- R43, R90: the high 3 bits of a prefix byte, bits 7 to 5, zero-extended to a symbol 0 to 7. -/
def highPart (b : Byte) : Sym5 :=
  (b.extractLsb' 5 3).zeroExtend 5

/-- R43, R91: the low 5 bits of a prefix byte, bits 4 to 0. -/
def lowPart (b : Byte) : Sym5 :=
  b.extractLsb' 0 5

/-- R111, R116: a width field is legal when it holds 1 to 8. -/
def legalWidth (w : WidthField) : Bool :=
  1 ≤ w.toNat && w.toNat ≤ 8

/-- R112: the input value `v` has no 1 at or above bit `fromBits`. -/
def fitsWidth (fromBits : Nat) (v : Byte) : Bool :=
  v.toNat >>> fromBits == 0

end Sys2Proof.Machine
end

