-- ==== Sys2Proof/Machine/ConvertBits.lean ====
section
/-! DEFINITION. The bit-width converter: `convert_bits` as a pure function (41_bit_converter.md
Part A, R110 to R115), and the arithmetic that CV.PUSH and CV.END do on the buffer (R117, R118).
Buffers are exact naturals here; the registers' widths are applied where they are written. -/

namespace Sys2Proof.Machine

/-- R7: a result of `convert_bits`. -/
inductive ConvertResult where
  | ok (out : List Byte)
  | invalidInputValue (v : Byte)
  | invalidPadding
deriving DecidableEq, Repr

/-- The `while` loop of R110: while at least `toBits` bits are buffered, take the oldest `toBits` of
them. It gives the groups in order and the number of bits left. `fuel` bounds the turns; `bits`
turns are always enough, since `toBits` is at least 1. -/
def emitGroups (acc toBits : Nat) : (fuel bits : Nat) → List Byte × Nat
  | 0, bits => ([], bits)
  | fuel + 1, bits =>
    if toBits ≤ bits then
      let group := BitVec.ofNat 8 ((acc >>> (bits - toBits)) &&& (2 ^ toBits - 1))
      let rest := emitGroups acc toBits fuel (bits - toBits)
      (group :: rest.1, rest.2)
    else ([], bits)

/-- R113, R114: the `bits` leftover bits left-justified in a group of `toBits` bits, zeros below. -/
def lastGroup (toBits acc bits : Nat) : Nat :=
  (acc <<< (toBits - bits)) &&& (2 ^ toBits - 1)

/-- R113: with padding, the leftover bits make one last group; no leftover bits make none. -/
def padGroups (toBits acc bits : Nat) : List Byte :=
  if 0 < bits then [BitVec.ofNat 8 (lastGroup toBits acc bits)] else []

/-- R114 (90_conflicts.md C2): without padding the leftover bits fail when they are at least a whole
input symbol, or when one of them is 1. -/
def paddingFails (fromBits toBits acc bits : Nat) : Bool :=
  fromBits ≤ bits || lastGroup toBits acc bits != 0

/-- The loop of R110 over the remaining input `data`, with the loop variables `acc`, `bits` and
`out`. When `masked`, stale bits are cleared at the end of each turn, as R110's listing does; when
not, the buffer is the unbounded one of R115. -/
def convertLoop (masked : Bool) (fromBits toBits : Nat) (pad : Bool) :
    (data : List Byte) → (acc bits : Nat) → (out : List Byte) → ConvertResult
  | [], acc, bits, out =>
    if pad then .ok (out ++ padGroups toBits acc bits)
    else if paddingFails fromBits toBits acc bits then .invalidPadding
    else .ok out
  | v :: data, acc, bits, out =>
    if fitsWidth fromBits v then
      let acc' := (acc <<< fromBits) ||| v.toNat
      let e := emitGroups acc' toBits (bits + fromBits) (bits + fromBits)
      let kept := if masked then acc' &&& (2 ^ e.2 - 1) else acc'
      convertLoop masked fromBits toBits pad data kept e.2 (out ++ e.1)
    else .invalidInputValue v

/-- R110 `convert_bits`. The widths are legal by their type (R111). -/
def convertBits (data : List Byte) (fromBits toBits : Width) (pad : Bool) : ConvertResult :=
  convertLoop true fromBits.val toBits.val pad data 0 0 []

/-- R115: `convert_bits` with the unbounded buffer that keeps its stale bits. -/
def convertBitsUnmasked (data : List Byte) (fromBits toBits : Width) (pad : Bool) :
    ConvertResult :=
  convertLoop false fromBits.val toBits.val pad data 0 0 []

/-- What one CV.PUSH makes of the buffer: the groups it emits and the buffer it leaves (R117). -/
structure Regrouped where
  groups : List Byte
  acc : Nat
  bits : Nat
deriving DecidableEq, Repr

/-- R117: the buffer after one input value: `a` and `b` are the buffer with the value appended, `n`
groups come out of it, oldest bits first, and `r` bits remain. -/
def regroup (fromBits toBits acc bits v : Nat) : Regrouped :=
  let a := (acc <<< fromBits) ||| v
  let b := bits + fromBits
  let n := b / toBits
  let r := b - n * toBits
  { groups := (List.range n).map fun k =>
      BitVec.ofNat 8 ((a >>> (b - (k + 1) * toBits)) &&& (2 ^ toBits - 1))
    acc := a &&& (2 ^ r - 1)
    bits := r }

end Sys2Proof.Machine
end

