-- ==== Sys2Proof/Machine/State.lean ====
section
/-! DEFINITION. The state of the block as plain data: `Block`, the tuple of nine registers and nothing
more (10_state.md R20), with its reset value (R32). Beside it the response record (30_encoding.md
R67), what the host can do (70_reset_and_hazards.md R192), the ways a step can stop, and the whole
that the host's interface steps: a block with the host's two ends of its command port. -/

namespace Sys2Proof.Machine

/-- `cv_phase` (R25): how far the conversion in progress has come. Codes: `phaseCode`. -/
inductive Phase where
  /-- No CV.CFG has been accepted since reset. -/
  | idle
  /-- A conversion is open. -/
  | run
  /-- A CV.END completed without error. -/
  | done
  /-- A CV.PUSH found a value too wide for `cv_from`. -/
  | errv
  /-- A CV.END without padding found bad leftover bits. -/
  | errp
deriving DecidableEq, Repr

/-- The six status codes that are ever produced (R68). Numbers: `statusCode`. -/
inductive Status where
  | ok
  | invalidInputValue
  | invalidPadding
  | fatal
  | illegalCmd
  | seqError
deriving DecidableEq, Repr

/-- The response record of one command (R67); a field a rule does not name is 0 (R6). `group` is
the eight slots `group[0]` to `group[7]`. `variant` is `none` for code 0, "no variant matched";
code 3 is never produced (R69), so the type has no value for it (`variantCode` gives the number). -/
structure Response where
  status : Status := .ok
  count : BitVec 4 := 0#4
  group : Vector Byte 8 := Vector.replicate 8 0#8
  value : Chk := 0#30
  variant : Option Variant := none
  errval : Byte := 0#8
deriving DecidableEq, Repr

/-- One move of the host (R192): it hands over a command word, or it asserts `rst` (R180). -/
inductive HostInput where
  | cmd (w : CmdWord)
  | rst
deriving DecidableEq, Repr

/-- The five conditions of R150, with the value each records. -/
inductive Condition where
  | invalidInputValue (value : Byte)
  | invalidPadding
  | badWidth
  | illegalCmd
  | seqError
deriving DecidableEq, Repr

/-- The complete state of the block: the nine registers of R20. Nothing else persists from one command
to the next. The command word is an argument of the block's step and the response a result of it
(R28, R31; `blockStep`), so neither is here. -/
structure Block where
  /-- R21: the checksum accumulator. -/
  chk : Chk
  /-- R22: the width of the conversion's input symbols. -/
  cvFrom : WidthField
  /-- R22: the width of the conversion's output groups. -/
  cvTo : WidthField
  /-- R23: whether leftover bits are padded. -/
  cvPad : Bool
  /-- R24: the buffered bits, right-justified. -/
  cvAcc : BitVec 7
  /-- R24: how many bits are buffered. -/
  cvBits : BitVec 3
  /-- R25: the converter's progress. -/
  cvPhase : Phase
  /-- R26: the offending value of the last InvalidInputValue. -/
  cvErrval : Byte
  /-- R27: the block-wide abort flag. -/
  fatal : Bool
deriving DecidableEq, Repr

/-- R32, R180: the block after reset. `chk` holds the seed 1, every other register 0, the phase IDLE. -/
def Block.reset : Block where
  chk := 0x00000001#30
  cvFrom := 0#4
  cvTo := 0#4
  cvPad := false
  cvAcc := 0#7
  cvBits := 0#3
  cvPhase := .idle
  cvErrval := 0#8
  fatal := false

/-- What the host's interface steps: a block, and what stands at the host's two ends of its command
port. The two lists are the host's and not the block's (R31 (b), (c); log entry 1): the block's own
step `blockStep` and every meaning it runs work on a `Block` and cannot see them. -/
structure State extends Block where
  /-- The moves the host has yet to make, the next one first (R31 (b), R191). -/
  inputs : List HostInput
  /-- The responses the host has been given, the first one first (R31 (c), R191). -/
  rsps : List Response
deriving DecidableEq, Repr

/-- What stops the machine. Both are raised by CV.PUSH and CV.END alone, in phase RUN, and only in
states that break 10_state.md R33, for which no rule gives a result (log entry 5). -/
inductive Fault where
  /-- Raised by CV.PUSH and CV.END in phase RUN when `cv_from` or `cv_to` is not 1 to 8: R111 gives
  the conversion no value for such a width, and U3 asks that none be defined. Safe: no state that
  a run reaches raises it (R33 (b)). -/
  | widthOutOfRange
  /-- Raised by CV.PUSH and CV.END in phase RUN when `cv_bits` is not below `cv_to` or `cv_acc` has a
  1 at or above bit `cv_bits`: the buffer is then none that R24 describes. Safe: no state that a
  run reaches raises it (R33 (b), (c)). -/
  | bufferInconsistent
deriving DecidableEq, Repr

/-- What the model gives no meaning to. -/
inductive Refusal where
  /-- Raised by `exec` for an instruction whose arm has no meaning yet. Safe. No arm is left so. -/
  | notModelled (mnemonic : String)
deriving DecidableEq, Repr

/-- R32: the block after reset, with a host that has handed over nothing and been answered nothing (log
entry 1). -/
def State.reset : State where
  toBlock := Block.reset
  inputs := []
  rsps := []

end Sys2Proof.Machine
end

