-- ==== Sys2Proof/Machine/Flags.lean ====
section
/-! DEFINITION. The block's flags (10_state.md R29): the numbers of its phase, status and variant
codes, the copy of `fatal` it shows outside, and the check that the converter's registers are ones
the rules speak of. There is no arithmetic flag. -/

namespace Sys2Proof.Machine

/-- R25: the number `cv_phase` holds. -/
def phaseCode : Phase → BitVec 3
  | .idle => 0#3
  | .run => 1#3
  | .done => 2#3
  | .errv => 3#3
  | .errp => 4#3

/-- R68: the number of a status. -/
def statusCode : Status → BitVec 4
  | .ok => 0#4
  | .invalidInputValue => 1#4
  | .invalidPadding => 2#4
  | .fatal => 3#4
  | .illegalCmd => 4#4
  | .seqError => 5#4

/-- R69: the number the response field `variant` holds. -/
def variantCode : Option Variant → BitVec 2
  | none => 0#2
  | some .a => 1#2
  | some .b => 2#2

/-- R70, R157: the output `fatal_o`, a copy of the `fatal` register. -/
def fatalO (b : Block) : Bool :=
  b.fatal

/-- What keeps CV.PUSH and CV.END from running in phase RUN: widths for which R111 gives no value,
or a buffer that R24 does not describe. `none` in every state that keeps R33. -/
def converterFault (b : Block) : Option Fault :=
  if legalWidth b.cvFrom && legalWidth b.cvTo then
    if b.cvBits.toNat < b.cvTo.toNat && b.cvAcc.toNat < 2 ^ b.cvBits.toNat then none
    else some .bufferInconsistent
  else some .widthOutOfRange

end Sys2Proof.Machine
end

