-- ==== Sys2Proof/Config.lean ====
section
/-! DEFINITION. The parameters that 00_scope.md R4 makes configuration fields of a model. The
values this hardware takes are `Machine.engineConfig` (Machine/Polymod.lean). -/

namespace Sys2Proof

/-- The generator table `GEN[0]` to `GEN[4]` and the two variant constants (R4, R80, R81). Each is
a 30-bit value by its type, which is the constraint R80 and R81 put on it. -/
structure Config where
  gen0 : Chk
  gen1 : Chk
  gen2 : Chk
  gen3 : Chk
  gen4 : Chk
  constA : Chk
  constB : Chk
deriving DecidableEq, Repr

/-- The named property `CONST_A != CONST_B` (R81, U10), a hypothesis of the claims that need it. -/
abbrev Config.ConstsDiffer (cfg : Config) : Prop :=
  cfg.constA ≠ cfg.constB

/-- R4, R190: `T_CMD`, the number of clock cycles a command takes, less one (it is positive). OPEN:
a free constant with no body, read by no rule and by no definition of this model (log entry 6). -/
opaque Config.tCmdLessOne : Instr → Nat

end Sys2Proof
end

