-- ==== Sys2Proof/Machine/Polymod.lean ====
section
/-! DEFINITION. The checksum engine's operations as pure functions over finite sequences
(40_checksum_engine.md Part A, R80 to R87), for every configuration, and the configuration this
hardware takes. -/

namespace Sys2Proof.Machine

/-- The values this hardware takes for the configuration (R4, R80, R81). PRESUMED: the spec marks
them as general knowledge, not in its source (G1 to G3). Unsafe; log entry 4. -/
def engineConfig : Config where
  gen0 := 0x3b6a57b2#30
  gen1 := 0x26508e6d#30
  gen2 := 0x1ea119fa#30
  gen3 := 0x3d4233dd#30
  gen4 := 0x2a1462b3#30
  constA := 0x00000001#30
  constB := 0x2bc830a3#30

/-- R4 `SEED`: the accumulator's initial value. -/
def seed : Chk :=
  1#30

/-- R81 `const(variant)`: the constant exclusive-ored into the remainder. -/
def variantConst (cfg : Config) : Variant → Chk
  | .a => cfg.constA
  | .b => cfg.constB

/-- R82 `polymod_step`: the low 25 bits move up by five, the symbol comes in below them, and
generator `i` is exclusive-ored in when bit `i` of the five bits above the mask was 1. -/
def polymodStep (cfg : Config) (c : Chk) (v : Sym5) : Chk :=
  let top := c.extractLsb' 25 5
  let s := (c &&& 0x1ffffff#30) <<< 5
  let t := s ||| v.zeroExtend 30
  let r0 := if top.getLsbD 0 then t ^^^ cfg.gen0 else t
  let r1 := if top.getLsbD 1 then r0 ^^^ cfg.gen1 else r0
  let r2 := if top.getLsbD 2 then r1 ^^^ cfg.gen2 else r1
  let r3 := if top.getLsbD 3 then r2 ^^^ cfg.gen3 else r2
  let r4 := if top.getLsbD 4 then r3 ^^^ cfg.gen4 else r3
  r4

/-- R83 `polymod_from`: the step applied to each symbol in order, starting at `c`. -/
def polymodFrom (cfg : Config) : Chk → List Sym5 → Chk
  | c, [] => c
  | c, v :: vs => polymodFrom cfg (polymodStep cfg c v) vs

/-- R83 `polymod`: the same, starting at the seed. -/
def polymod (cfg : Config) (values : List Sym5) : Chk :=
  polymodFrom cfg seed values

/-- R84 `expand_prefix`: the high parts of all bytes, one zero symbol, the low parts of all bytes
(the grouped reading, 90_conflicts.md C1). -/
def expandPrefix (hrp : List Byte) : List Sym5 :=
  hrp.map highPart ++ [0#5] ++ hrp.map lowPart

/-- R85: the "six zero padding values". -/
def sixZeros : List Sym5 :=
  [0#5, 0#5, 0#5, 0#5, 0#5, 0#5]

/-- R42, R85: a 30-bit value cut into six 5-bit big-endian groups. -/
def cutSix (m : Chk) : List Sym5 :=
  [m.extractLsb' 25 5, m.extractLsb' 20 5, m.extractLsb' 15 5,
   m.extractLsb' 10 5, m.extractLsb' 5 5, m.extractLsb' 0 5]

/-- R85, R92: the finished 30-bit checksum value of a message whose accumulator is `c`. -/
def finishChecksum (cfg : Config) (c : Chk) (variant : Variant) : Chk :=
  polymodFrom cfg c sixZeros ^^^ variantConst cfg variant

/-- R85 `create_checksum`: the six checksum symbols. -/
def createChecksum (cfg : Config) (hrp : List Byte) (data : List Sym5) (variant : Variant) :
    List Sym5 :=
  cutSix (polymod cfg (expandPrefix hrp ++ data ++ sixZeros) ^^^ variantConst cfg variant)

/-- R86, R93: the variant whose constant a 30-bit value equals; Variant-A is tested first. -/
def identifyVariant (cfg : Config) (p : Chk) : Option Variant :=
  if p = cfg.constA then some .a
  else if p = cfg.constB then some .b
  else none

/-- R86 `verify_and_identify_variant`. `none` is a result, not a failure (R87). -/
def verifyAndIdentifyVariant (cfg : Config) (hrp : List Byte) (dataWithChecksum : List Sym5) :
    Option Variant :=
  identifyVariant cfg (polymod cfg (expandPrefix hrp ++ dataWithChecksum))

end Sys2Proof.Machine
end

