-- ==== Sys2Proof/Machine/Ops.lean ====
section
/-! DEFINITION. The named operations the commands are made of, on the block alone: the register writes,
answering a command, raising a condition (60_exceptions.md R150 to R159), and the two tests that
come before a command's own work, in the order of R158. -/

namespace Sys2Proof.Machine

/-- What a command makes of the block (20_memory.md R48): the state after it and its response. -/
abbrev Reply := Host.Outcome (Block × Response) Fault Refusal

/-! ### Register writes -/

/-- R21: write the accumulator. -/
def setChk (c : Chk) (b : Block) : Block :=
  { b with chk := c }

/-- R24: write the converter's buffer, at the registers' widths. -/
def setBuffer (acc bits : Nat) (b : Block) : Block :=
  { b with cvAcc := BitVec.ofNat 7 acc, cvBits := BitVec.ofNat 3 bits }

/-- R25: write the converter's phase. -/
def setPhase (p : Phase) (b : Block) : Block :=
  { b with cvPhase := p }

/-- R26: write the offending value. -/
def setErrval (v : Byte) (b : Block) : Block :=
  { b with cvErrval := v }

/-- R27: set the abort flag. No command clears it. -/
def setFatal (b : Block) : Block :=
  { b with fatal := true }

/-! ### Answering a command -/

/-- R67, R31 (c): the command leaves the block `b` and is answered `r`. The response goes out with the
result and is stored nowhere. -/
def respond (r : Response) (b : Block) : Block × Response :=
  (b, r)

/-- R67: the eight group slots, `group[0]` first; a slot no group fills is 0. -/
def groupSlots (groups : List Byte) : Vector Byte 8 :=
  Vector.ofFn fun k => groups.getD k.val 0#8

/-- R67: an OK response that carries `groups` in emission order. -/
def groupsResponse (groups : List Byte) : Response :=
  { count := BitVec.ofNat 4 groups.length, group := groupSlots groups }

/-- R67: an OK response that carries a 30-bit checksum value. -/
def valueResponse (value : Chk) : Response :=
  { value := value }

/-- R67: the valid groups of a response, in slot order up to `count`. -/
def validGroups (r : Response) : List Byte :=
  r.group.toList.take r.count.toNat

/-! ### Conditions -/

/-- R151 to R155: entering a condition. Exactly the register writes its entry rule lists, and the
response it gives; nothing is saved and control goes nowhere (R159). -/
def raise (c : Condition) (b : Block) : Block × Response :=
  match c with
  | .invalidInputValue v =>
    respond { status := .invalidInputValue, errval := v } (setErrval v (setPhase .errv b))
  | .invalidPadding => respond { status := .invalidPadding } (setPhase .errp b)
  | .badWidth => respond { status := .fatal } (setFatal b)
  | .illegalCmd => respond { status := .illegalCmd } b
  | .seqError => respond { status := .seqError } b

/-- R160: what ends InvalidInputValue and InvalidPadding, there being no return instruction: the
accepted CV.CFG of R116 writes the configuration, empties the buffer, clears `cv_errval` and opens
a conversion. -/
def openConversion (pad : Bool) (fromBits toBits : WidthField) (b : Block) : Block :=
  { b with
    cvFrom := fromBits
    cvTo := toBits
    cvPad := pad
    cvAcc := 0#7
    cvBits := 0#3
    cvErrval := 0#8
    cvPhase := .run }

/-- R153: the answer of an aborted block, which changes nothing else. -/
def refuseFatal (b : Block) : Block × Response :=
  respond { status := .fatal } b

/-- R158 (1): while `fatal` is 1 the command does not run and is answered FATAL. -/
def unlessFatal (b : Block) (command : Reply) : Reply :=
  if b.fatal then .next (refuseFatal b) else command

/-- R158 (4), (5): CV.PUSH and CV.END do their work in phase RUN alone; without an open conversion
they raise SeqError, and after an input error they repeat its status and write nothing. -/
def whileRunning (b : Block) (command : Reply) : Reply :=
  match b.cvPhase with
  | .idle => .next (raise .seqError b)
  | .done => .next (raise .seqError b)
  | .errv => .next (respond { status := .invalidInputValue, errval := b.cvErrval } b)
  | .errp => .next (respond { status := .invalidPadding } b)
  | .run =>
    match converterFault b with
    | some f => .fault f
    | none => command

/-- R82, R89: absorb one symbol into the accumulator and answer with its new value. -/
def absorb (v : Sym5) (b : Block) : Block × Response :=
  let n := polymodStep engineConfig b.chk v
  respond (valueResponse n) (setChk n b)

end Sys2Proof.Machine
end

