-- ==== Sys2Proof/Machine/Port.lean ====
section
/-! DEFINITION. The host's side of the command port (30_encoding.md R70): how a move of the host reaches
the block and how the block's answer reaches the host. Nothing here decides what a command does. -/

namespace Sys2Proof.Machine

/-- The outcome of a step of the block together with its host. -/
abbrev Outcome := Host.Outcome State Fault Refusal

/-- What the host has yet to hand over. -/
def setInputs (inputs : List HostInput) (s : State) : State :=
  { s with inputs := inputs }

/-- R48, R191: the block goes on from the state a command left, and the host is given its response. -/
def deliver (s : State) (answer : Block × Response) : State :=
  { toBlock := answer.1, inputs := s.inputs, rsps := s.rsps ++ [answer.2] }

/-- Have the block run a command that the host hands over, and deliver its answer. -/
def atPort (command : Block → Reply) (s : State) : Outcome :=
  match command s.toBlock with
  | .next answer => .next (deliver s answer)
  | .fault f => .fault f
  | .refused r => .refused r

/-- R180: the host asserts `rst`; the block is the reset block, whatever it was. It is no command:
nothing is answered, and the host's coming moves and the responses it was given stay the host's. -/
def applyReset (s : State) : State :=
  { s with toBlock := Block.reset }

end Sys2Proof.Machine
end

