-- ==== Sys2Proof/Machine/Checksum.lean ====
section
/-! DEFINITION. The seven commands of the checksum engine (40_checksum_engine.md Part B). None reads
or writes a register of the converter, and none writes `fatal`. `reply…` is what the block does;
`exec…` is the same at the port. -/

namespace Sys2Proof.Machine

/-- R88 CK.INIT: seed the accumulator. -/
def replyCkInit (b : Block) : Reply :=
  unlessFatal b (.next (respond (valueResponse seed) (setChk seed b)))

/-- R88 CK.INIT, handed over by the host. -/
def execCkInit (s : State) : Outcome :=
  atPort replyCkInit s

/-- R89 CK.SYM: absorb one symbol. -/
def replyCkSym (sym : Sym5) (b : Block) : Reply :=
  unlessFatal b (.next (absorb sym b))

/-- R89 CK.SYM, handed over by the host. -/
def execCkSym (sym : Sym5) (s : State) : Outcome :=
  atPort (replyCkSym sym) s

/-- R90 CK.HRPH: absorb the high part of one prefix byte. -/
def replyCkHrph (byte : Byte) (b : Block) : Reply :=
  unlessFatal b (.next (absorb (highPart byte) b))

/-- R90 CK.HRPH, handed over by the host. -/
def execCkHrph (byte : Byte) (s : State) : Outcome :=
  atPort (replyCkHrph byte) s

/-- R91 CK.HRPL: absorb the low part of one prefix byte. -/
def replyCkHrpl (byte : Byte) (b : Block) : Reply :=
  unlessFatal b (.next (absorb (lowPart byte) b))

/-- R91 CK.HRPL, handed over by the host. -/
def execCkHrpl (byte : Byte) (s : State) : Outcome :=
  atPort (replyCkHrpl byte) s

/-- R92: the response of CK.GEN: six symbols, each zero-extended to its slot, and the value they were
cut from. -/
def checksumResponse (m : Chk) : Response :=
  { groupsResponse ((cutSix m).map (·.zeroExtend 8)) with value := m }

/-- R92 CK.GEN: finish a checksum on a copy of the accumulator, which keeps its value. -/
def replyCkGen (var : Variant) (b : Block) : Reply :=
  unlessFatal b (.next (respond (checksumResponse (finishChecksum engineConfig b.chk var)) b))

/-- R92 CK.GEN, handed over by the host. -/
def execCkGen (var : Variant) (s : State) : Outcome :=
  atPort (replyCkGen var) s

/-- R93 CK.VFY: identify the variant. No match is an ordinary result (R87); nothing is stored. -/
def replyCkVfy (b : Block) : Reply :=
  unlessFatal b
    (.next (respond { value := b.chk, variant := identifyVariant engineConfig b.chk } b))

/-- R93 CK.VFY, handed over by the host. -/
def execCkVfy (s : State) : Outcome :=
  atPort replyCkVfy s

/-- R94 CK.RD: read the accumulator. -/
def replyCkRd (b : Block) : Reply :=
  unlessFatal b (.next (respond (valueResponse b.chk) b))

/-- R94 CK.RD, handed over by the host. -/
def execCkRd (s : State) : Outcome :=
  atPort replyCkRd s

end Sys2Proof.Machine
end

