-- ==== Sys2Proof/Machine/Converter.lean ====
section
/-! DEFINITION. The three commands of the bit-width converter (41_bit_converter.md Part B). None
reads or writes `chk`. `reply…` is what the block does; `exec…` is the same at the port. -/

namespace Sys2Proof.Machine

/-- R116 CV.CFG: begin a conversion, in any phase. Both widths are tested before anything is
written; a bad one aborts the block (R153). -/
def replyCvCfg (pad : Bool) (fromBits toBits : WidthField) (b : Block) : Reply :=
  unlessFatal b
    (if legalWidth fromBits && legalWidth toBits then
      .next (respond {} (openConversion pad fromBits toBits b))
    else .next (raise .badWidth b))

/-- R116 CV.CFG, handed over by the host. -/
def execCvCfg (pad : Bool) (fromBits toBits : WidthField) (s : State) : Outcome :=
  atPort (replyCvCfg pad fromBits toBits) s

/-- R117 CV.PUSH in phase RUN: a value that fits is appended to the buffer, and every complete group
is emitted; one that does not raises InvalidInputValue. -/
def pushValue (byte : Byte) (b : Block) : Block × Response :=
  if fitsWidth b.cvFrom.toNat byte then
    let g := regroup b.cvFrom.toNat b.cvTo.toNat b.cvAcc.toNat b.cvBits.toNat byte.toNat
    respond (groupsResponse g.groups) (setBuffer g.acc g.bits b)
  else raise (.invalidInputValue byte) b

/-- R117 CV.PUSH: convert one input symbol. -/
def replyCvPush (byte : Byte) (b : Block) : Reply :=
  unlessFatal b (whileRunning b (.next (pushValue byte b)))

/-- R117 CV.PUSH, handed over by the host. -/
def execCvPush (byte : Byte) (s : State) : Outcome :=
  atPort (replyCvPush byte) s

/-- R118 CV.END in phase RUN: with padding the leftover bits make one last group; without, they must
pass the test of R114. Only the phase is written. -/
def endConversion (b : Block) : Block × Response :=
  if b.cvPad then
    respond (groupsResponse (padGroups b.cvTo.toNat b.cvAcc.toNat b.cvBits.toNat))
      (setPhase .done b)
  else if paddingFails b.cvFrom.toNat b.cvTo.toNat b.cvAcc.toNat b.cvBits.toNat then
    raise .invalidPadding b
  else respond {} (setPhase .done b)

/-- R118 CV.END: finish a conversion. -/
def replyCvEnd (b : Block) : Reply :=
  unlessFatal b (whileRunning b (.next (endConversion b)))

/-- R118 CV.END, handed over by the host. -/
def execCvEnd (s : State) : Outcome :=
  atPort replyCvEnd s

end Sys2Proof.Machine
end

