-- ==== Sys2Proof/Machine/System.lean ====
section
/-! DEFINITION. What belongs to neither unit: NOP (42_system.md R140), words that are not commands
(R141), and the block at rest. `reply…` is what the block does; `exec…` is the same at the port. -/

namespace Sys2Proof.Machine

/-- R140: do nothing. -/
def replyNop (b : Block) : Reply :=
  unlessFatal b (.next (respond {} b))

/-- R140 NOP, handed over by the host. -/
def execNop (s : State) : Outcome :=
  atPort replyNop s

/-- R141, R154: a word that is not a command. On an aborted block FATAL comes first (R158). -/
def replyIllegalWord (b : Block) : Reply :=
  unlessFatal b (.next (raise .illegalCmd b))

/-- R141: a word that is not a command, handed over by the host. -/
def illegalWord (s : State) : Outcome :=
  atPort replyIllegalWord s

/-- R181: with nothing handed over the block waits for the host; nothing changes. DEDUCED; safe; log
entry 2. -/
def awaitHost (s : State) : State :=
  s

end Sys2Proof.Machine
end

