-- ==== Sys2Proof/Machine/Dispatch.lean ====
section
/-! DEFINITION. One arm per command, each one direct call of that command's meaning. -/

namespace Sys2Proof.Machine

def exec (i : Instr) (s : State) : Host.Outcome State Fault Refusal :=
  match i with
  -- 42_system.md
  | .nop => Sys2Proof.Machine.execNop s
  -- 40_checksum_engine.md Part B
  | .ckInit => Sys2Proof.Machine.execCkInit s
  | .ckSym sym => Sys2Proof.Machine.execCkSym sym s
  | .ckHrph byte => Sys2Proof.Machine.execCkHrph byte s
  | .ckHrpl byte => Sys2Proof.Machine.execCkHrpl byte s
  | .ckGen var => Sys2Proof.Machine.execCkGen var s
  | .ckVfy => Sys2Proof.Machine.execCkVfy s
  | .ckRd => Sys2Proof.Machine.execCkRd s
  -- 41_bit_converter.md Part B
  | .cvCfg pad fromBits toBits => Sys2Proof.Machine.execCvCfg pad fromBits toBits s
  | .cvPush byte => Sys2Proof.Machine.execCvPush byte s
  | .cvEnd => Sys2Proof.Machine.execCvEnd s

end Sys2Proof.Machine
end

