-- ==== Sys2Proof/Machine/Step.lean ====
section
/-! DEFINITION. One step as the host's interface has it: the host's next move is taken and served
(20_memory.md R48). A word is decoded and run, or refused as no command, exactly as the block's own
step `blockStep` does with that word; `rst` resets; with no move left the block waits. -/

namespace Sys2Proof.Machine

/-- R48, R191: one move of the host. Each command is one atomic, terminating step (R47). -/
def step (s : State) : Host.Outcome State Fault Refusal :=
  match s.inputs with
  | [] => .next (awaitHost s)
  | .rst :: rest => .next (applyReset (setInputs rest s))
  | .cmd w :: rest =>
    match decode w with
    | .ok i => exec i (setInputs rest s)
    | .error _ => illegalWord (setInputs rest s)

/-- The state in which the host hands over next the command whose word has the bits `w`, of which the
opcode table gives the low `nbits` (log entry 3). The block fetches nothing (R28): this stands for
the host's move, so the very next step runs that command. -/
def State.withFetchWord (s : State) (nbits w : Nat) : State :=
  { s with inputs := .cmd (BitVec.ofNat 16 (w % 2 ^ nbits)) :: s.inputs }

end Sys2Proof.Machine
end

