-- ==== Sys2Proof/Machine/BlockStep.lean ====
section
/-! DEFINITION. The block's own step function, which takes the command word as an argument and gives
the state after it and its response (10_state.md R28, 20_memory.md R48), and its iteration over a
list of words (70_reset_and_hazards.md R191). -/

namespace Sys2Proof.Machine

/-- R63: what the block does with a command. -/
def reply (i : Instr) (b : Block) : Reply :=
  match i with
  | .nop => replyNop b
  | .ckInit => replyCkInit b
  | .ckSym sym => replyCkSym sym b
  | .ckHrph byte => replyCkHrph byte b
  | .ckHrpl byte => replyCkHrpl byte b
  | .ckGen var => replyCkGen var b
  | .ckVfy => replyCkVfy b
  | .ckRd => replyCkRd b
  | .cvCfg pad fromBits toBits => replyCvCfg pad fromBits toBits b
  | .cvPush byte => replyCvPush byte b
  | .cvEnd => replyCvEnd b

/-- R28, R48: the step function of the block, from a state and the command word handed to it to the
next state and the response. -/
def blockStep (b : Block) (w : CmdWord) : Reply :=
  match decode w with
  | .ok i => reply i b
  | .error _ => replyIllegalWord b

/-- R191: a run. The words are applied one after another, and the result is the final state and the
list of responses. -/
def blockRun : List CmdWord → Block → Host.Outcome (Block × List Response) Fault Refusal
  | [], b => .next (b, [])
  | w :: ws, b =>
    match blockStep b w with
    | .fault f => .fault f
    | .refused r => .refused r
    | .next (after, r) =>
      match blockRun ws after with
      | .fault f => .fault f
      | .refused q => .refused q
      | .next (final, rs) => .next (final, r :: rs)

end Sys2Proof.Machine
end

