-- ==== Sys2Proof/Machine/Messages.lean ====
section
/-! DEFINITION. Command sequences that software is made of: the expansion of the pseudo-instructions
(30_encoding.md R72), the message protocols (70_reset_and_hazards.md R184, R185, R192) with the host's
duty at the end of a conversion (60_exceptions.md R161), and the assembler's output for a line (R71). -/

namespace Sys2Proof.Machine

/-- R72 `CK.HRP`: the streaming form of `expand_prefix`; every byte is sent twice (R184). -/
def hrpCommands (hrp : List Byte) : List Instr :=
  hrp.map .ckHrph ++ [.ckSym 0#5] ++ hrp.map .ckHrpl

/-- R184: the commands that create a checksum. The host sends no padding zeros. -/
def createMessage (hrp : List Byte) (data : List Sym5) (var : Variant) : List Instr :=
  [.ckInit] ++ hrpCommands hrp ++ data.map .ckSym ++ [.ckGen var]

/-- R185: the commands that verify a string, checksum symbols included in the data. -/
def verifyMessage (hrp : List Byte) (dataWithChecksum : List Sym5) : List Instr :=
  [.ckInit] ++ hrpCommands hrp ++ dataWithChecksum.map .ckSym ++ [.ckVfy]

/-- R119, R192: the commands of one conversion. -/
def convertMessage (data : List Byte) (fromBits toBits : Width) (pad : Bool) : List Instr :=
  [.cvCfg pad (BitVec.ofNat 4 fromBits.val) (BitVec.ofNat 4 toBits.val)]
    ++ data.map .cvPush ++ [.cvEnd]

/-- R161, R188, R192: what the host makes of the answers to one conversion: every valid group, in order,
when all are OK; otherwise the error that the first failed answer reports, with every group discarded.
`none` when the conversion was not carried out at all (a FATAL, ILLEGAL_CMD or SEQ_ERROR answer). -/
def conversionResult (answers : List Response) : Option ConvertResult :=
  match answers.find? fun r => r.status != .ok with
  | none => some (.ok (answers.flatMap validGroups))
  | some r =>
    match r.status with
    | .invalidInputValue => some (.invalidInputValue r.errval)
    | .invalidPadding => some .invalidPadding
    | .ok => none
    | .fatal => none
    | .illegalCmd => none
    | .seqError => none

/-- R71, R72: the commands of an assembler line whose operands are in range. -/
def expandLine : AsmLine → List Instr
  | .nop => [.nop]
  | .ckInit => [.ckInit]
  | .ckSym sym => [.ckSym (BitVec.ofNat 5 sym)]
  | .ckHrph byte => [.ckHrph (BitVec.ofNat 8 byte)]
  | .ckHrpl byte => [.ckHrpl (BitVec.ofNat 8 byte)]
  | .ckGen var => [.ckGen var]
  | .ckVfy => [.ckVfy]
  | .ckRd => [.ckRd]
  | .cvCfg fromBits toBits pad => [.cvCfg pad (BitVec.ofNat 4 fromBits) (BitVec.ofNat 4 toBits)]
  | .cvPush byte => [.cvPush (BitVec.ofNat 8 byte)]
  | .cvEnd => [.cvEnd]
  | .ckSep => [.ckSym 0#5]
  | .ckHrp bytes => hrpCommands (bytes.map (BitVec.ofNat 8))
  | .ckData syms => syms.map fun v => .ckSym (BitVec.ofNat 5 v)
  | .cvData bytes => bytes.map fun v => .cvPush (BitVec.ofNat 8 v)

/-- R71: the words of an assembler line. The assembler refuses an operand outside its range. -/
def assembleLine (l : AsmLine) : Option (List CmdWord) :=
  if l.wellFormed then some ((expandLine l).map encode) else none

end Sys2Proof.Machine
end

