-- ==== Sys2Proof/Safety.lean ====
section
/-! DEFINITION. The terms claims are stated in: the invariant of reachable states (10_state.md R33),
what a run is and when it has gone wrong (70_reset_and_hazards.md R191), which command belongs to
which unit, and what a value is as a stretch of a bit stream (20_memory.md R41). -/

namespace Sys2Proof

open Sys2Proof.Machine

/-! ### States -/

/-- R33 (b) to (e), the well-formedness predicate on states of the block; (a) holds by the type of
`chk`, and (f) is a claim about steps. -/
abbrev Machine.Block.Inv (b : Block) : Prop :=
  (b.cvPhase ≠ .idle →
    1 ≤ b.cvFrom.toNat ∧ b.cvFrom.toNat ≤ 8 ∧ 1 ≤ b.cvTo.toNat ∧ b.cvTo.toNat ≤ 8 ∧
      b.cvBits.toNat < b.cvTo.toNat) ∧
  b.cvAcc.toNat < 2 ^ b.cvBits.toNat ∧
  (b.cvPhase = .idle →
    b.cvFrom = 0#4 ∧ b.cvTo = 0#4 ∧ b.cvPad = false ∧ b.cvAcc = 0#7 ∧ b.cvBits = 0#3 ∧
      b.cvErrval = 0#8) ∧
  (b.cvPhase ≠ .errv → b.cvErrval = 0#8)

/-- The block of `s` meets the invariant, whatever its host does. -/
abbrev Machine.State.Inv (s : State) : Prop :=
  s.toBlock.Inv

/-- The next state of an outcome, if it has one. -/
def nextState? : Outcome → Option State
  | .next t => some t
  | .fault _ => none
  | .refused _ => none

/-! ### Runs (R191) -/

/-- A run: the host's moves `ms`, served one after another by `step` from `s`. -/
def serve (ms : List HostInput) (s : State) : Outcome :=
  Host.Core.run core ms.length (setInputs ms s)

/-- The host's moves that hand over the commands `is`, by their words. -/
def commands (is : List Instr) : List HostInput :=
  is.map fun i => .cmd (encode i)

/-- R191: a run has gone wrong when its final state has `fatal` = 1. -/
def GoneWrong (t : State) : Prop :=
  t.fatal = true

/-- R191: a response that says a command failed to produce its output without the run having gone
wrong. -/
def failedOutput (r : Response) : Bool :=
  match r.status with
  | .ok => false
  | .fatal => false
  | .invalidInputValue => true
  | .invalidPadding => true
  | .illegalCmd => true
  | .seqError => true

/-! ### Commands and responses -/

/-- The three commands of the bit-width converter. -/
def isBwc : Instr → Bool
  | .cvCfg _ _ _ => true
  | .cvPush _ => true
  | .cvEnd => true
  | .nop => false
  | .ckInit => false
  | .ckSym _ => false
  | .ckHrph _ => false
  | .ckHrpl _ => false
  | .ckGen _ => false
  | .ckVfy => false
  | .ckRd => false

/-- R116: a command that aborts the block: a CV.CFG with a width outside 1 to 8. -/
def hasBadWidth : Instr → Bool
  | .cvCfg _ fromBits toBits =>
    fromBits.toNat < 1 || 8 < fromBits.toNat || toBits.toNat < 1 || 8 < toBits.toNat
  | .cvPush _ => false
  | .cvEnd => false
  | .nop => false
  | .ckInit => false
  | .ckSym _ => false
  | .ckHrph _ => false
  | .ckHrpl _ => false
  | .ckGen _ => false
  | .ckVfy => false
  | .ckRd => false

/-- R89 to R91: the symbols a command absorbs into the accumulator. CK.INIT absorbs none: it seeds. -/
def absorbedSymbols : Instr → List Sym5
  | .ckSym sym => [sym]
  | .ckHrph byte => [highPart byte]
  | .ckHrpl byte => [lowPart byte]
  | .nop => []
  | .ckInit => []
  | .ckGen _ => []
  | .ckVfy => []
  | .ckRd => []
  | .cvCfg _ _ _ => []
  | .cvPush _ => []
  | .cvEnd => []

/-- R67: what every response keeps: at most eight groups, 0 in the slots after them, no value and no
group unless the status is OK, and an offending value only with INVALID_INPUT_VALUE. -/
abbrev ResponseOk (r : Response) : Prop :=
  r.count.toNat ≤ 8 ∧
  r.group.toList.drop r.count.toNat = List.replicate (8 - r.count.toNat) 0#8 ∧
  (r.status ≠ .ok → r.value = 0#30 ∧ r.count = 0#4 ∧ r.variant = none) ∧
  (r.status ≠ .invalidInputValue → r.errval = 0#8)

/-- The responses to the converter's commands, when `rs` answers `is` one for one. -/
def bwcResponses (is : List Instr) (rs : List Response) : List Response :=
  ((is.zip rs).filter fun p => isBwc p.1).map (·.2)

/-! ### Bit streams -/

/-- R41: the `width` binary digits of `v`, most significant first. -/
def bitsOf (width v : Nat) : List Bool :=
  (List.range width).map fun k => v.testBit (width - 1 - k)

/-- R41: the bit stream of a sequence of values, each written in `width` digits. -/
def bitStream (width : Nat) (values : List Byte) : List Bool :=
  values.flatMap fun v => bitsOf width v.toNat

end Sys2Proof
end

