-- ==== Sys2Proof/Certificates/Slice0/Obligations.lean ====
section
/-! DEFINITION. The statements for the provers, in the order of OBLIGATIONS.json. Every claim is about
the block, none about a particular program. `engineConfig` is never unfolded by a claim's truth: what
is said of it holds for every generator table and every pair of constants. -/

open Sys2Proof Sys2Proof.Machine

/-! ### Encoding -/

/-- R61 to R66: a few words written out bit by bit from the formats, and two refusals by name. -/
def Obligations.HandEncodedWordsDecode : Prop :=
  decode 0b0000000000000000#16 = .ok .nop ∧
  decode 0b0010000000010101#16 = .ok (.ckSym 21#5) ∧
  decode 0b0011000001100010#16 = .ok (.ckHrph 0x62#8) ∧
  decode 0b0101000000000001#16 = .ok (.ckGen .b) ∧
  decode 0b1000000110000101#16 = .ok (.cvCfg true 8#4 5#4) ∧
  decode 0b1000000001011000#16 = .ok (.cvCfg false 5#4 8#4) ∧
  decode 0b1001000000011110#16 = .ok (.cvPush 0x1e#8) ∧
  decode 0b1010000000000000#16 = .ok .cvEnd ∧
  decode 0b0010000000100000#16 = .error (.mustBeZero 2#4) ∧
  decode 0b1011000000000000#16 = .error (.reservedOpcode 11#4)

/-- R61, R63, R64: decoding the word of a well-formed command gives the command back, with every
operand at every value its field holds. -/
def Obligations.DecodeUndoesEncode : Prop :=
  ∀ i : Instr, i.wellFormed = true → decode (encode i) = .ok i

/-- R61, R64: a word that decodes is the word of the command it decodes to, so no two words mean the
same command. -/
def Obligations.EncodeUndoesDecode : Prop :=
  ∀ (w : CmdWord) (i : Instr), decode w = .ok i → encode i = w

/-- R63: a word is a command of a row exactly when, under the row's mask, it is the row's match. -/
def Obligations.DecodedExactlyWhenMaskMatches : Prop :=
  ∀ (w : CmdWord) (row : Instr),
    (∃ i, decode w = .ok i ∧ mnemonic i = mnemonic row) ↔ w &&& rowMask row = rowMatch row

/-- R65, R154: which words are illegal, and what one does: no register changes, and the answer is
ILLEGAL_CMD with every other field 0; every other word is a command. -/
def Obligations.IllegalWordsAreRefusedWithoutEffect : Prop :=
  (∀ w : CmdWord,
    (∃ e, decode w = .error e) ↔
      (11 ≤ w.toNat / 4096 ∨
       (w.toNat / 4096 ∈ [0, 1, 6, 7, 10] ∧ w.toNat % 4096 ≠ 0) ∨
       (w.toNat / 4096 = 2 ∧ 32 ≤ w.toNat % 4096) ∨
       (w.toNat / 4096 ∈ [3, 4, 9] ∧ 256 ≤ w.toNat % 4096) ∨
       (w.toNat / 4096 = 5 ∧ 2 ≤ w.toNat % 4096) ∨
       (w.toNat / 4096 = 8 ∧ 512 ≤ w.toNat % 4096))) ∧
  (∀ (s : State) (w : CmdWord) (e : DecodeError) (rest : List HostInput),
    s.fatal = false → s.inputs = .cmd w :: rest → decode w = .error e →
    step s = .next { s with inputs := rest, rsps := s.rsps ++ [{ status := .illegalCmd }] })

/-- R71, R72: the assembler emits, for a line whose operands are in range, words that decode to the
line's expansion, and refuses every other line; `CK.HRP` expands to twice the bytes and one. -/
def Obligations.AssembledLinesDecodeToTheirExpansion : Prop :=
  (∀ l : AsmLine, l.wellFormed = true →
    ∃ ws, assembleLine l = some ws ∧ ws.map decode = (expandLine l).map .ok) ∧
  (∀ l : AsmLine, l.wellFormed = false → assembleLine l = none) ∧
  (∀ bytes : List Nat, (expandLine (.ckHrp bytes)).length = 2 * bytes.length + 1)

/-! ### The step, reset, invariants -/

/-- R48: the step takes the host's next move and, when it is a word that decodes, is `exec` of the
command in the state with that move taken; with no move left it changes nothing (the second clause is
the model's reading, log entry 2). -/
def Obligations.StepRunsTheDecodedCommand : Prop :=
  (∀ (s : State) (w : CmdWord) (i : Instr) (rest : List HostInput),
    s.inputs = .cmd w :: rest → decode w = .ok i → i.wellFormed = true →
    step s = exec i { s with inputs := rest }) ∧
  (∀ s : State, s.inputs = [] → step s = .next s)

/-- R32: every register after reset. -/
def Obligations.ResetHoldsTheStatedValues : Prop :=
  State.reset.chk = 0x00000001#30 ∧ State.reset.cvFrom = 0#4 ∧ State.reset.cvTo = 0#4 ∧
  State.reset.cvPad = false ∧ State.reset.cvAcc = 0#7 ∧ State.reset.cvBits = 0#3 ∧
  State.reset.cvPhase = .idle ∧ State.reset.cvErrval = 0#8 ∧ State.reset.fatal = false

/-- R33: the reset state meets the invariant. -/
def Obligations.ResetMeetsTheInvariant : Prop :=
  State.reset.Inv

/-- R180: `rst` gives the reset values in whatever state the block was, `fatal` = 1 included, and a
step that is not a reset neither clears `fatal` nor reaches phase IDLE. -/
def Obligations.OnlyResetClearsFatalAndReachesIdle : Prop :=
  (∀ (s : State) (rest : List HostInput), s.inputs = .rst :: rest →
    ∃ given, step s =
      .next { chk := 0x00000001#30, cvFrom := 0#4, cvTo := 0#4, cvPad := false,
              cvAcc := 0#7, cvBits := 0#3, cvPhase := .idle, cvErrval := 0#8,
              fatal := false, inputs := rest, rsps := given }) ∧
  (∀ s t : State, s.inputs.head? ≠ some .rst → step s = .next t →
    (s.fatal = true → t.fatal = true) ∧ (t.cvPhase = .idle → s.cvPhase = .idle))

/-- R33: every step keeps the invariant, from every state that meets it. -/
def Obligations.EveryStepKeepsTheInvariant : Prop :=
  ∀ s t : State, s.Inv → step s = .next t → t.Inv

/-- R191: in a state that meets the invariant no step stops: every move of the host is served. -/
def Obligations.NoStepStopsUnderTheInvariant : Prop :=
  ∀ s : State, s.Inv → ∃ t, step s = .next t

/-- The model's own stops (log entry 5): outside the invariant, CV.PUSH and CV.END in phase RUN fault
by name when a width is not 1 to 8, and when the buffer is not one the widths allow. -/
def Obligations.BrokenConverterStateFaults : Prop :=
  ∀ (s : State) (i : Instr), s.fatal = false → s.cvPhase = .run →
    (i = .cvEnd ∨ ∃ byte, i = .cvPush byte) →
    (s.cvFrom.toNat = 0 ∨ 8 < s.cvFrom.toNat ∨ s.cvTo.toNat = 0 ∨ 8 < s.cvTo.toNat →
      exec i s = .fault .widthOutOfRange) ∧
    (1 ≤ s.cvFrom.toNat → s.cvFrom.toNat ≤ 8 → 1 ≤ s.cvTo.toNat → s.cvTo.toNat ≤ 8 →
      s.cvTo.toNat ≤ s.cvBits.toNat ∨ 2 ^ s.cvBits.toNat ≤ s.cvAcc.toNat →
      exec i s = .fault .bufferInconsistent)

/-- R191: a run of command words from reset is served to its end, and has gone wrong exactly when one
of its words is a CV.CFG with a width outside 1 to 8. -/
def Obligations.RunFromResetGoesWrongExactlyByABadWidth : Prop :=
  ∀ ws : List CmdWord, ∃ t : State,
    serve (ws.map .cmd) State.reset = .next t ∧
    (GoneWrong t ↔ ∃ w ∈ ws, ∃ i, decode w = .ok i ∧ hasBadWidth i = true)

/-! ### Conditions -/

/-- R153: a CV.CFG with a bad width writes `fatal` and nothing else; from then on, until reset, every
word, legal or not, is answered FATAL and changes no register. -/
def Obligations.BadWidthAbortsTheBlockUntilReset : Prop :=
  (∀ (s : State) (pad : Bool) (fromBits toBits : WidthField), s.fatal = false →
    (fromBits.toNat < 1 ∨ 8 < fromBits.toNat ∨ toBits.toNat < 1 ∨ 8 < toBits.toNat) →
    exec (.cvCfg pad fromBits toBits) s =
      .next { s with fatal := true, rsps := s.rsps ++ [{ status := .fatal }] }) ∧
  (∀ (s : State) (ws : List CmdWord), s.fatal = true →
    serve (ws.map .cmd) s =
      .next { s with inputs := [],
                     rsps := s.rsps ++ List.replicate ws.length { status := .fatal } })

/-- R151: a CV.PUSH in phase RUN whose value has a 1 at or above bit `cv_from` writes the phase and
the offending value, and nothing else. -/
def Obligations.TooWideValueEntersErrv : Prop :=
  ∀ (s : State) (byte : Byte), s.fatal = false → s.cvPhase = .run → s.Inv →
    2 ^ s.cvFrom.toNat ≤ byte.toNat →
    exec (.cvPush byte) s =
      .next { s with cvPhase := .errv, cvErrval := byte,
                     rsps := s.rsps ++ [{ status := .invalidInputValue, errval := byte }] }

/-- R152: a CV.END in phase RUN without padding writes the phase, and nothing else, when the leftover
bits are at least a whole input symbol or not all zero. -/
def Obligations.BadPaddingEntersErrp : Prop :=
  ∀ s : State, s.fatal = false → s.cvPhase = .run → s.Inv → s.cvPad = false →
    (s.cvFrom.toNat ≤ s.cvBits.toNat ∨ s.cvAcc ≠ 0#7) →
    exec .cvEnd s =
      .next { s with cvPhase := .errp, rsps := s.rsps ++ [{ status := .invalidPadding }] }

/-- R155: CV.PUSH and CV.END without an open conversion write nothing. -/
def Obligations.ConverterRefusesWithoutAnOpenConversion : Prop :=
  ∀ (s : State) (i : Instr), s.fatal = false → (s.cvPhase = .idle ∨ s.cvPhase = .done) →
    (i = .cvEnd ∨ ∃ byte, i = .cvPush byte) →
    exec i s = .next { s with rsps := s.rsps ++ [{ status := .seqError }] }

/-- R160: after an input error CV.PUSH and CV.END repeat its status, in ERRV with the stored value,
and write nothing; an accepted CV.CFG ends it. -/
def Obligations.InputErrorsStickUntilTheNextConversion : Prop :=
  (∀ (s : State) (i : Instr), s.fatal = false → (i = .cvEnd ∨ ∃ byte, i = .cvPush byte) →
    (s.cvPhase = .errv → exec i s =
      .next { s with
        rsps := s.rsps ++ [{ status := .invalidInputValue, errval := s.cvErrval }] }) ∧
    (s.cvPhase = .errp → exec i s =
      .next { s with rsps := s.rsps ++ [{ status := .invalidPadding }] })) ∧
  (∀ (s t : State) (pad : Bool) (fromBits toBits : WidthField),
    s.fatal = false → hasBadWidth (.cvCfg pad fromBits toBits) = false →
    (s.cvPhase = .errv ∨ s.cvPhase = .errp) →
    exec (.cvCfg pad fromBits toBits) s = .next t →
    t.cvPhase = .run ∧ t.cvErrval = 0#8 ∧ t.cvAcc = 0#7 ∧ t.cvBits = 0#3)

/-- R158: the order of the tests, as the status of the one response each word gets, and the value
reported with INVALID_INPUT_VALUE. -/
def Obligations.FirstConditionThatAppliesDecidesTheStatus : Prop :=
  ∀ (s : State) (w : CmdWord) (rest : List HostInput), s.Inv → s.inputs = .cmd w :: rest →
    ∃ t r, step s = .next t ∧ t.rsps = s.rsps ++ [r] ∧
      (s.fatal = true → r.status = .fatal) ∧
      (s.fatal = false → ∀ e, decode w = .error e → r.status = .illegalCmd) ∧
      (s.fatal = false → ∀ i, decode w = .ok i →
        (isBwc i = false → r.status = .ok) ∧
        (∀ pad fromBits toBits, i = .cvCfg pad fromBits toBits →
          r.status = if hasBadWidth i then .fatal else .ok) ∧
        (∀ byte, i = .cvPush byte →
          (s.cvPhase = .idle ∨ s.cvPhase = .done → r.status = .seqError) ∧
          (s.cvPhase = .errv → r.status = .invalidInputValue ∧ r.errval = s.cvErrval) ∧
          (s.cvPhase = .errp → r.status = .invalidPadding) ∧
          (s.cvPhase = .run → 2 ^ s.cvFrom.toNat ≤ byte.toNat →
            r.status = .invalidInputValue ∧ r.errval = byte) ∧
          (s.cvPhase = .run → byte.toNat < 2 ^ s.cvFrom.toNat → r.status = .ok)) ∧
        (i = .cvEnd →
          (s.cvPhase = .idle ∨ s.cvPhase = .done → r.status = .seqError) ∧
          (s.cvPhase = .errv → r.status = .invalidInputValue ∧ r.errval = s.cvErrval) ∧
          (s.cvPhase = .errp → r.status = .invalidPadding) ∧
          (s.cvPhase = .run → s.cvPad = true → r.status = .ok) ∧
          (s.cvPhase = .run → s.cvPad = false →
            r.status = if s.cvFrom.toNat ≤ s.cvBits.toNat ∨ s.cvAcc ≠ 0#7
              then .invalidPadding else .ok)))

/-- R163: how a command moves the phase, every row of the table; with `fatal` = 1 nothing moves. -/
def Obligations.PhaseMovesAsTheTableSays : Prop :=
  ∀ (s t : State) (i : Instr), exec i s = .next t →
    (s.fatal = true → t.cvPhase = s.cvPhase) ∧
    (s.fatal = false →
      (isBwc i = false → t.cvPhase = s.cvPhase) ∧
      (∀ pad fromBits toBits, i = .cvCfg pad fromBits toBits →
        t.cvPhase = if hasBadWidth i then s.cvPhase else .run) ∧
      (∀ byte, i = .cvPush byte →
        t.cvPhase = if s.cvPhase = .run ∧ 2 ^ s.cvFrom.toNat ≤ byte.toNat
          then .errv else s.cvPhase) ∧
      (i = .cvEnd →
        t.cvPhase = if s.cvPhase = .run then
            (if s.cvPad = false ∧ (s.cvFrom.toNat ≤ s.cvBits.toNat ∨ s.cvAcc ≠ 0#7)
              then .errp else .done)
          else s.cvPhase))

/-! ### The commands -/

/-- R140: NOP answers OK with every other field 0 and changes nothing; an aborted block refuses it. -/
def Obligations.NopDoesNothing : Prop :=
  encode .nop = 0x0000#16 ∧
  (∀ s : State, s.fatal = false → exec .nop s = .next { s with rsps := s.rsps ++ [{}] }) ∧
  (∀ s : State, s.fatal = true →
    exec .nop s = .next { s with rsps := s.rsps ++ [{ status := .fatal }] })

/-- R88: CK.INIT seeds the accumulator from any value of it and touches nothing else. -/
def Obligations.CkInitSeedsTheAccumulator : Prop :=
  encode .ckInit = 0x1000#16 ∧
  ∀ s : State, s.fatal = false →
    exec .ckInit s = .next { s with chk := 1#30, rsps := s.rsps ++ [{ value := 1#30 }] }

/-- R89: CK.SYM applies one step of the polynomial to the accumulator and answers its new value. -/
def Obligations.CkSymAbsorbsOneSymbol : Prop :=
  ∀ (s : State) (sym : Sym5), s.fatal = false →
    encode (.ckSym sym) = 0x2000#16 ||| sym.zeroExtend 16 ∧
    exec (.ckSym sym) s =
      .next { s with chk := polymodStep engineConfig s.chk sym,
                     rsps := s.rsps ++ [{ value := polymodStep engineConfig s.chk sym }] }

/-- R90: CK.HRPH absorbs bits 7 to 5 of its byte, as CK.SYM of the byte shifted right by five does. -/
def Obligations.CkHrphAbsorbsTheHighPart : Prop :=
  ∀ (s : State) (byte : Byte), s.fatal = false →
    encode (.ckHrph byte) = 0x3000#16 ||| byte.zeroExtend 16 ∧
    exec (.ckHrph byte) s = exec (.ckSym (BitVec.ofNat 5 (byte.toNat / 32))) s ∧
    (let n := polymodStep engineConfig s.chk (BitVec.ofNat 5 (byte.toNat / 32))
     exec (.ckHrph byte) s = .next { s with chk := n, rsps := s.rsps ++ [{ value := n }] })

/-- R91: CK.HRPL absorbs bits 4 to 0 of its byte, as CK.SYM of the byte modulo 32 does. -/
def Obligations.CkHrplAbsorbsTheLowPart : Prop :=
  ∀ (s : State) (byte : Byte), s.fatal = false →
    encode (.ckHrpl byte) = 0x4000#16 ||| byte.zeroExtend 16 ∧
    exec (.ckHrpl byte) s = exec (.ckSym (BitVec.ofNat 5 (byte.toNat % 32))) s ∧
    (let n := polymodStep engineConfig s.chk (BitVec.ofNat 5 (byte.toNat % 32))
     exec (.ckHrpl byte) s = .next { s with chk := n, rsps := s.rsps ++ [{ value := n }] })

/-- R92: CK.GEN answers the six symbols and the value of the padded message's checksum; no register
changes, so feeding it to the other variant afterwards is possible. -/
def Obligations.CkGenAnswersTheChecksum : Prop :=
  ∀ (s : State) (var : Variant), s.fatal = false →
    (let c := polymodFrom engineConfig s.chk (List.replicate 6 0#5)
     let m := c ^^^ (match var with | .a => engineConfig.constA | .b => engineConfig.constB)
     let slot (hi : Nat) : Byte := BitVec.ofNat 8 (m.toNat / 2 ^ hi % 32)
     exec (.ckGen var) s =
      .next { s with rsps := s.rsps ++
        [{ count := 6#4, value := m,
           group := #v[slot 25, slot 20, slot 15, slot 10, slot 5, slot 0, 0#8, 0#8] }] }) ∧
    encode (.ckGen .a) = 0x5000#16 ∧ encode (.ckGen .b) = 0x5001#16

/-- R93: CK.VFY compares all 30 bits with the two constants, Variant-A first, and stores nothing. -/
def Obligations.CkVfyReportsTheVariant : Prop :=
  encode .ckVfy = 0x6000#16 ∧
  ∀ s : State, s.fatal = false → ∃ r : Response,
    exec .ckVfy s = .next { s with rsps := s.rsps ++ [r] } ∧
    r = { value := s.chk, variant := r.variant } ∧
    variantCode r.variant =
      (if s.chk = engineConfig.constA then 1#2
       else if s.chk = engineConfig.constB then 2#2 else 0#2)

/-- R94: CK.RD answers the accumulator and changes nothing. -/
def Obligations.CkRdReadsTheAccumulator : Prop :=
  encode .ckRd = 0x7000#16 ∧
  ∀ s : State, s.fatal = false →
    exec .ckRd s = .next { s with rsps := s.rsps ++ [{ value := s.chk }] }

/-- R116: CV.CFG with both widths legal opens a conversion, in any phase, and with a bad one writes
`fatal` alone. -/
def Obligations.CvCfgOpensAConversionOrAborts : Prop :=
  ∀ (s : State) (pad : Bool) (fromBits toBits : WidthField), s.fatal = false →
    encode (.cvCfg pad fromBits toBits) =
      0x8000#16 ||| ((BitVec.ofBool pad).zeroExtend 16 <<< 8) |||
        (fromBits.zeroExtend 16 <<< 4) ||| toBits.zeroExtend 16 ∧
    (1 ≤ fromBits.toNat → fromBits.toNat ≤ 8 → 1 ≤ toBits.toNat → toBits.toNat ≤ 8 →
      exec (.cvCfg pad fromBits toBits) s =
        .next { s with cvFrom := fromBits, cvTo := toBits, cvPad := pad, cvAcc := 0#7,
                       cvBits := 0#3, cvErrval := 0#8, cvPhase := .run,
                       rsps := s.rsps ++ [{}] }) ∧
    (¬ (1 ≤ fromBits.toNat ∧ fromBits.toNat ≤ 8 ∧ 1 ≤ toBits.toNat ∧ toBits.toNat ≤ 8) →
      exec (.cvCfg pad fromBits toBits) s =
        .next { s with fatal := true, rsps := s.rsps ++ [{ status := .fatal }] })

/-- R117, R24: CV.PUSH in phase RUN of a value that fits: the buffer with the value appended is the
number `a` of `b` bits; its complete groups are answered, oldest first, and the rest is kept. The
bounds say that no register and no slot cuts a value short. -/
def Obligations.CvPushEmitsTheCompleteGroups : Prop :=
  ∀ (s : State) (byte : Byte), s.fatal = false → s.cvPhase = .run → s.Inv →
    byte.toNat < 2 ^ s.cvFrom.toNat →
    let a := s.cvAcc.toNat * 2 ^ s.cvFrom.toNat + byte.toNat
    let b := s.cvBits.toNat + s.cvFrom.toNat
    let n := b / s.cvTo.toNat
    let r := b % s.cvTo.toNat
    a < 2 ^ 15 ∧ a < 2 ^ b ∧ n ≤ 8 ∧ r < 8 ∧ a % 2 ^ r < 2 ^ 7 ∧
    exec (.cvPush byte) s =
      .next { s with
        cvAcc := BitVec.ofNat 7 (a % 2 ^ r)
        cvBits := BitVec.ofNat 3 r
        rsps := s.rsps ++
          [{ count := BitVec.ofNat 4 n
             group := Vector.ofFn fun k =>
               if k.val < n then
                 BitVec.ofNat 8 (a / 2 ^ (b - (k.val + 1) * s.cvTo.toNat) % 2 ^ s.cvTo.toNat)
               else 0#8 }] }

/-- R118, R113: CV.END in phase RUN with padding finishes the conversion and answers the leftover
bits, left-justified, as one last group; with no leftover bit it answers no group. -/
def Obligations.CvEndPadsTheLastGroup : Prop :=
  ∀ s : State, s.fatal = false → s.cvPhase = .run → s.Inv → s.cvPad = true →
    (s.cvBits = 0#3 →
      exec .cvEnd s = .next { s with cvPhase := .done, rsps := s.rsps ++ [{}] }) ∧
    (s.cvBits ≠ 0#3 →
      (let last := s.cvAcc.toNat * 2 ^ (s.cvTo.toNat - s.cvBits.toNat)
       last < 2 ^ s.cvTo.toNat ∧
       exec .cvEnd s =
        .next { s with
          cvPhase := .done
          rsps := s.rsps ++
            [{ count := 1#4,
               group := #v[BitVec.ofNat 8 last, 0#8, 0#8, 0#8, 0#8, 0#8, 0#8, 0#8] }] }))

/-- R118, R114: CV.END in phase RUN without padding finishes the conversion, with no group, when the
leftover bits are fewer than an input symbol and all zero. -/
def Obligations.CvEndAcceptsZeroPadding : Prop :=
  ∀ s : State, s.fatal = false → s.cvPhase = .run → s.Inv → s.cvPad = false →
    s.cvBits.toNat < s.cvFrom.toNat → s.cvAcc = 0#7 →
    exec .cvEnd s = .next { s with cvPhase := .done, rsps := s.rsps ++ [{}] }

/-- R41: CV.PUSH neither loses, adds nor reorders a bit: the buffered bits followed by the value's
are the emitted groups' bits followed by the bits kept, most significant first throughout. -/
def Obligations.CvPushKeepsTheBitStream : Prop :=
  ∀ (s : State) (byte : Byte), s.fatal = false → s.cvPhase = .run → s.Inv →
    byte.toNat < 2 ^ s.cvFrom.toNat →
    ∃ t r, exec (.cvPush byte) s = .next t ∧ t.rsps = s.rsps ++ [r] ∧
      bitsOf s.cvBits.toNat s.cvAcc.toNat ++ bitsOf s.cvFrom.toNat byte.toNat =
        bitStream s.cvTo.toNat (validGroups r) ++ bitsOf t.cvBits.toNat t.cvAcc.toNat

/-! ### What a command may write, read and answer -/

/-- R20, "written by": which commands can change which register; the host's moves are no command's
to change. -/
def Obligations.EveryRegisterHasItsWriters : Prop :=
  ∀ (s t : State) (i : Instr), exec i s = .next t →
    t.inputs = s.inputs ∧
    (t.chk ≠ s.chk → i = .ckInit ∨ (∃ v, i = .ckSym v) ∨ (∃ b, i = .ckHrph b) ∨
      ∃ b, i = .ckHrpl b) ∧
    (t.cvFrom ≠ s.cvFrom ∨ t.cvTo ≠ s.cvTo ∨ t.cvPad ≠ s.cvPad → ∃ p f d, i = .cvCfg p f d) ∧
    (t.cvAcc ≠ s.cvAcc ∨ t.cvBits ≠ s.cvBits ∨ t.cvErrval ≠ s.cvErrval →
      (∃ p f d, i = .cvCfg p f d) ∨ ∃ b, i = .cvPush b) ∧
    (t.cvPhase ≠ s.cvPhase → isBwc i = true) ∧
    (t.fatal ≠ s.fatal → hasBadWidth i = true ∧ t.fatal = true)

/-- R67: every command is answered by exactly one response, and that response is of the stated
shape, from every state that meets the invariant. -/
def Obligations.EveryCommandIsAnsweredOnce : Prop :=
  ∀ (s : State) (i : Instr), s.Inv →
    ∃ t r, exec i s = .next t ∧ t.rsps = s.rsps ++ [r] ∧ ResponseOk r

/-- R47: NOP, CK.GEN, CK.VFY and CK.RD change no register, and issued twice in a row answer the same
twice. -/
def Obligations.ReadingCommandsAreIdempotent : Prop :=
  ∀ (s : State) (i : Instr),
    (i = .nop ∨ (∃ v, i = .ckGen v) ∨ i = .ckVfy ∨ i = .ckRd) →
    ∃ r, exec i s = .next { s with rsps := s.rsps ++ [r] } ∧
      exec i { s with rsps := s.rsps ++ [r] } = .next { s with rsps := s.rsps ++ [r, r] }

/-- R52: the units share only `fatal`. What a command of the checksum engine (or NOP) writes and
answers is decided by `chk` and `fatal` alone, and what one of the converter does is the same
whatever `chk` holds, which it keeps. -/
def Obligations.UnitsShareOnlyTheAbortFlag : Prop :=
  (∀ (i : Instr) (s u : State), isBwc i = false → s.chk = u.chk → s.fatal = u.fatal →
    ∃ c r, exec i s = .next { s with chk := c, rsps := s.rsps ++ [r] } ∧
      exec i u = .next { u with chk := c, rsps := u.rsps ++ [r] }) ∧
  (∀ (i : Instr) (s t : State) (c : Chk), isBwc i = true → exec i s = .next t →
    t.chk = s.chk ∧ exec i { s with chk := c } = .next { t with chk := c })

/-! ### The checksum functions, for every configuration -/

/-- R82: the step shifts the low 25 bits up by five, puts the symbol below them, and exclusive-ors in
the generator of each set bit of the five above the mask. -/
def Obligations.PolymodStepIsShiftThenFeedback : Prop :=
  ∀ (cfg : Config) (c : Chk) (v : Sym5),
    let shifted : Chk := BitVec.ofNat 30 (c.toNat % 2 ^ 25 * 32 + v.toNat)
    let fed (k : Nat) (g : Chk) : Chk := if c.toNat / 2 ^ (25 + k) % 2 = 1 then g else 0#30
    polymodStep cfg c v =
      shifted ^^^ fed 4 cfg.gen4 ^^^ fed 3 cfg.gen3 ^^^ fed 2 cfg.gen2 ^^^ fed 1 cfg.gen1 ^^^
        fed 0 cfg.gen0

/-- R96 (b): the step is linear over GF(2). -/
def Obligations.PolymodStepIsLinear : Prop :=
  ∀ (cfg : Config) (c d : Chk) (v w : Sym5),
    polymodStep cfg (c ^^^ d) (v ^^^ w) = polymodStep cfg c v ^^^ polymodStep cfg d w

/-- R83: continuing from an accumulator is absorbing the rest of the sequence. -/
def Obligations.PolymodContinuesOverConcatenation : Prop :=
  ∀ (cfg : Config) (c : Chk) (xs ys : List Sym5),
    polymodFrom cfg c (xs ++ ys) = polymodFrom cfg (polymodFrom cfg c xs) ys

/-- R96 (c): six trailing symbols enter the remainder as the 30-bit number they spell. -/
def Obligations.TrailingSixSymbolsEnterUnchanged : Prop :=
  ∀ (cfg : Config) (x : List Sym5) (w0 w1 w2 w3 w4 w5 : Sym5),
    polymod cfg (x ++ [w0, w1, w2, w3, w4, w5]) =
      polymod cfg (x ++ List.replicate 6 0#5) ^^^ (w0 ++ w1 ++ w2 ++ w3 ++ w4 ++ w5)

/-- R96 (d): a string with the checksum created for a variant verifies as that variant; for Variant-B
provided the two constants differ. -/
def Obligations.CreatedChecksumVerifiesAsItsVariant : Prop :=
  ∀ (cfg : Config) (hrp : List Byte) (data : List Sym5) (v : Variant),
    (v = .b → cfg.ConstsDiffer) →
    verifyAndIdentifyVariant cfg hrp (data ++ createChecksum cfg hrp data v) = some v

/-- R96 (e): a change by `d` of one symbol at distance at most five from the end changes the remainder
by `d` shifted to its place, which is never zero, so it is always detected. -/
def Obligations.OneLateSymbolErrorChangesTheRemainder : Prop :=
  ∀ (cfg : Config) (before after : List Sym5) (x d : Sym5), after.length ≤ 5 → d ≠ 0#5 →
    let good := polymod cfg (before ++ x :: after)
    let bad := polymod cfg (before ++ (x ^^^ d) :: after)
    bad = good ^^^ (d.zeroExtend 30 <<< (5 * after.length)) ∧ bad ≠ good

/-! ### The converter function -/

/-- R115: clearing the stale bits of the buffer changes no output and no error. -/
def Obligations.MaskedBufferChangesNoResult : Prop :=
  ∀ (data : List Byte) (f t : Width) (pad : Bool),
    convertBits data f t pad = convertBitsUnmasked data f t pad

/-- R112: the conversion reports an input value exactly when that value is the first too wide one. -/
def Obligations.FirstTooWideValueIsReported : Prop :=
  ∀ (data : List Byte) (f t : Width) (pad : Bool) (v : Byte),
    convertBits data f t pad = .invalidInputValue v ↔
      ∃ before after, data = before ++ v :: after ∧
        (∀ u ∈ before, u.toNat < 2 ^ f.val) ∧ 2 ^ f.val ≤ v.toNat

/-- R41, R113, R114, R120 (b), (c): when every value fits, the output is the input's bit stream cut
anew. With padding every bit is there, followed by zeros that fill the last group; without, the
conversion succeeds exactly when the leftover bits are fewer than an input symbol and all zero, and
gives the complete groups. -/
def Obligations.ConvertBitsRecutsTheBitStream : Prop :=
  ∀ (data : List Byte) (f t : Width), (∀ v ∈ data, v.toNat < 2 ^ f.val) →
    let total := data.length * f.val
    let stream := bitStream f.val data
    let whole := total / t.val * t.val
    (∃ out, convertBits data f t true = .ok out ∧
      out.length = (total + t.val - 1) / t.val ∧
      (∀ g ∈ out, g.toNat < 2 ^ t.val) ∧
      bitStream t.val out = stream ++ List.replicate (out.length * t.val - total) false) ∧
    (total % t.val < f.val → (∀ b ∈ stream.drop whole, b = false) →
      ∃ out, convertBits data f t false = .ok out ∧
        out.length = total / t.val ∧
        (∀ g ∈ out, g.toNat < 2 ^ t.val) ∧
        bitStream t.val out = stream.take whole) ∧
    (f.val ≤ total % t.val ∨ (∃ b ∈ stream.drop whole, b = true) →
      convertBits data f t false = .invalidPadding)

/-- R120 (d): converting to no greater width with padding and back without returns the input. -/
def Obligations.PadThenUnpadReturnsTheInput : Prop :=
  ∀ (x : List Byte) (f t : Width), t.val ≤ f.val → (∀ v ∈ x, v.toNat < 2 ^ f.val) →
    ∃ y, convertBits x f t true = .ok y ∧ convertBits y t f false = .ok x

/-- R120 (e): with equal widths the conversion copies a sequence whose symbols fit. -/
def Obligations.EqualWidthsCopyTheInput : Prop :=
  ∀ (x : List Byte) (f : Width) (pad : Bool), (∀ v ∈ x, v.toNat < 2 ^ f.val) →
    convertBits x f f pad = .ok x

/-! ### The commands realise the functions -/

/-- R95 (a), (b) and its last sentence: whatever commands stand among them (no bad width, no second
CK.INIT), the accumulator is the remainder of the symbols absorbed, continued from what it held; after
a leading CK.INIT it is the remainder itself; `CK.HRP` absorbs the expanded prefix. -/
def Obligations.AccumulatorIsThePolymodOfWhatWasAbsorbed : Prop :=
  (∀ (s : State) (is : List Instr), s.Inv → s.fatal = false →
    (∀ i ∈ is, hasBadWidth i = false ∧ i ≠ .ckInit) →
    (∃ t, serve (commands is) s = .next t ∧
      t.chk = polymodFrom engineConfig s.chk (is.flatMap absorbedSymbols)) ∧
    (∃ t, serve (commands (.ckInit :: is)) s = .next t ∧
      t.chk = polymod engineConfig (is.flatMap absorbedSymbols))) ∧
  (∀ hrp : List Byte, (hrpCommands hrp).flatMap absorbedSymbols = expandPrefix hrp)

/-- R95 (c), R184: the commands that create a checksum are all answered OK, and CK.GEN answers the
symbols of `create_checksum`. -/
def Obligations.CreateMessageAnswersCreateChecksum : Prop :=
  ∀ (s : State) (hrp : List Byte) (data : List Sym5) (var : Variant), s.fatal = false →
    ∃ t rs r, serve (commands (createMessage hrp data var)) s = .next t ∧
      t.rsps = s.rsps ++ rs ++ [r] ∧ (∀ q ∈ rs, q.status = .ok) ∧ r.status = .ok ∧
      validGroups r = (createChecksum engineConfig hrp data var).map (·.zeroExtend 8) ∧
      t.chk = polymod engineConfig (expandPrefix hrp ++ data)

/-- R95 (d), R185: the commands that verify a string are all answered OK, and CK.VFY answers the code
of `verify_and_identify_variant`'s result. -/
def Obligations.VerifyMessageAnswersTheVariant : Prop :=
  ∀ (s : State) (hrp : List Byte) (dataWithChecksum : List Sym5), s.fatal = false →
    ∃ t rs r, serve (commands (verifyMessage hrp dataWithChecksum)) s = .next t ∧
      t.rsps = s.rsps ++ rs ++ [r] ∧ (∀ q ∈ rs, q.status = .ok) ∧ r.status = .ok ∧
      variantCode r.variant =
        (match verifyAndIdentifyVariant engineConfig hrp dataWithChecksum with
         | some .a => 1#2
         | some .b => 2#2
         | none => 0#2)

/-- R119, R161: the commands of a conversion, with NOP and checksum commands anywhere among them, realise
`convert_bits`, which is what the host makes of the answers when it discards as it must: its groups in order when it succeeds; the first offending value, from its own push on,
when it does not fit; INVALID_PADDING at the end when the padding is bad. -/
def Obligations.ConvertMessageAnswersConvertBits : Prop :=
  ∀ (s : State) (is : List Instr) (data : List Byte) (f t : Width) (pad : Bool),
    s.fatal = false → is.filter isBwc = convertMessage data f t pad →
    ∃ u rs, serve (commands is) s = .next u ∧ u.rsps = s.rsps ++ rs ∧ rs.length = is.length ∧
      (let answers := bwcResponses is rs
       answers.length = data.length + 2 ∧
       conversionResult answers = some (convertBits data f t pad) ∧
       (∀ out, convertBits data f t pad = .ok out →
         (∀ r ∈ answers, r.status = .ok) ∧ answers.flatMap validGroups = out ∧
           u.cvPhase = .done) ∧
       (∀ v, convertBits data f t pad = .invalidInputValue v →
         ∃ k, data[k]? = some v ∧ 2 ^ f.val ≤ v.toNat ∧
           (∀ x ∈ data.take k, x.toNat < 2 ^ f.val) ∧
           (∀ r ∈ answers.take (k + 1), r.status = .ok) ∧
           (∀ r ∈ answers.drop (k + 1), r.status = .invalidInputValue ∧ r.errval = v) ∧
           u.cvPhase = .errv) ∧
       (convertBits data f t pad = .invalidPadding →
         (∀ r ∈ answers.take (data.length + 1), r.status = .ok) ∧
         (∀ r ∈ answers.drop (data.length + 1), r.status = .invalidPadding) ∧
         u.cvPhase = .errp))

/-! ### The block's own step -/

/-- R28, R31 (b), (c), R48: the block's step takes the command word as an argument and gives the next
state of its nine registers and the response; a step at the port does with the word the host hands
over exactly what that function does, and the answer depends on nothing else the port holds. -/
def Obligations.StepIsTheBlocksStepOnTheWordHandedOver : Prop :=
  ∀ (s : State) (w : CmdWord) (rest : List HostInput), s.inputs = .cmd w :: rest →
    (∀ after r, blockStep s.toBlock w = .next (after, r) →
      step s = .next { toBlock := after, inputs := rest, rsps := s.rsps ++ [r] }) ∧
    (∀ f, blockStep s.toBlock w = .fault f → step s = .fault f) ∧
    (∀ q, blockStep s.toBlock w ≠ .refused q)

/-- R191: the words of a run, applied one after another by the block's step, give its final state and
its list of responses. Under the invariant the run is served to its end with one response a word, and
serving it at the port ends in the same registers with those responses given. -/
def Obligations.RunAtThePortIsTheBlocksRun : Prop :=
  ∀ (s : State) (ws : List CmdWord), s.Inv →
    ∃ final rs, blockRun ws s.toBlock = .next (final, rs) ∧ rs.length = ws.length ∧ final.Inv ∧
      serve (ws.map .cmd) s = .next { toBlock := final, inputs := [], rsps := s.rsps ++ rs }
end

