-- ==== Sys2Proof/Laws/State.lean ====
section
/-! SUPPORT. What each named register write leaves in each register, one lemma per register per write,
and what the port's operations leave in the block and in the host's lists, so that no later proof
unfolds a record update. -/

namespace Sys2Proof.Machine

variable (b : Block) (s : State)

/-! ### `setChk` -/

@[simp] theorem setChk_chk (c : Chk) : (setChk c b).chk = c := rfl
@[simp] theorem setChk_cvFrom (c : Chk) : (setChk c b).cvFrom = b.cvFrom := rfl
@[simp] theorem setChk_cvTo (c : Chk) : (setChk c b).cvTo = b.cvTo := rfl
@[simp] theorem setChk_cvPad (c : Chk) : (setChk c b).cvPad = b.cvPad := rfl
@[simp] theorem setChk_cvAcc (c : Chk) : (setChk c b).cvAcc = b.cvAcc := rfl
@[simp] theorem setChk_cvBits (c : Chk) : (setChk c b).cvBits = b.cvBits := rfl
@[simp] theorem setChk_cvPhase (c : Chk) : (setChk c b).cvPhase = b.cvPhase := rfl
@[simp] theorem setChk_cvErrval (c : Chk) : (setChk c b).cvErrval = b.cvErrval := rfl
@[simp] theorem setChk_fatal (c : Chk) : (setChk c b).fatal = b.fatal := rfl

/-! ### `setBuffer` -/

@[simp] theorem setBuffer_chk (acc bits : Nat) : (setBuffer acc bits b).chk = b.chk := rfl
@[simp] theorem setBuffer_cvFrom (acc bits : Nat) : (setBuffer acc bits b).cvFrom = b.cvFrom := rfl
@[simp] theorem setBuffer_cvTo (acc bits : Nat) : (setBuffer acc bits b).cvTo = b.cvTo := rfl
@[simp] theorem setBuffer_cvPad (acc bits : Nat) : (setBuffer acc bits b).cvPad = b.cvPad := rfl
@[simp] theorem setBuffer_cvAcc (acc bits : Nat) : (setBuffer acc bits b).cvAcc = BitVec.ofNat 7 acc := rfl
@[simp] theorem setBuffer_cvBits (acc bits : Nat) : (setBuffer acc bits b).cvBits = BitVec.ofNat 3 bits := rfl
@[simp] theorem setBuffer_cvPhase (acc bits : Nat) : (setBuffer acc bits b).cvPhase = b.cvPhase := rfl
@[simp] theorem setBuffer_cvErrval (acc bits : Nat) : (setBuffer acc bits b).cvErrval = b.cvErrval := rfl
@[simp] theorem setBuffer_fatal (acc bits : Nat) : (setBuffer acc bits b).fatal = b.fatal := rfl

/-! ### `setPhase` -/

@[simp] theorem setPhase_chk (p : Phase) : (setPhase p b).chk = b.chk := rfl
@[simp] theorem setPhase_cvFrom (p : Phase) : (setPhase p b).cvFrom = b.cvFrom := rfl
@[simp] theorem setPhase_cvTo (p : Phase) : (setPhase p b).cvTo = b.cvTo := rfl
@[simp] theorem setPhase_cvPad (p : Phase) : (setPhase p b).cvPad = b.cvPad := rfl
@[simp] theorem setPhase_cvAcc (p : Phase) : (setPhase p b).cvAcc = b.cvAcc := rfl
@[simp] theorem setPhase_cvBits (p : Phase) : (setPhase p b).cvBits = b.cvBits := rfl
@[simp] theorem setPhase_cvPhase (p : Phase) : (setPhase p b).cvPhase = p := rfl
@[simp] theorem setPhase_cvErrval (p : Phase) : (setPhase p b).cvErrval = b.cvErrval := rfl
@[simp] theorem setPhase_fatal (p : Phase) : (setPhase p b).fatal = b.fatal := rfl

/-! ### `setErrval` -/

@[simp] theorem setErrval_chk (v : Byte) : (setErrval v b).chk = b.chk := rfl
@[simp] theorem setErrval_cvFrom (v : Byte) : (setErrval v b).cvFrom = b.cvFrom := rfl
@[simp] theorem setErrval_cvTo (v : Byte) : (setErrval v b).cvTo = b.cvTo := rfl
@[simp] theorem setErrval_cvPad (v : Byte) : (setErrval v b).cvPad = b.cvPad := rfl
@[simp] theorem setErrval_cvAcc (v : Byte) : (setErrval v b).cvAcc = b.cvAcc := rfl
@[simp] theorem setErrval_cvBits (v : Byte) : (setErrval v b).cvBits = b.cvBits := rfl
@[simp] theorem setErrval_cvPhase (v : Byte) : (setErrval v b).cvPhase = b.cvPhase := rfl
@[simp] theorem setErrval_cvErrval (v : Byte) : (setErrval v b).cvErrval = v := rfl
@[simp] theorem setErrval_fatal (v : Byte) : (setErrval v b).fatal = b.fatal := rfl

/-! ### `setFatal` -/

@[simp] theorem setFatal_chk : (setFatal b).chk = b.chk := rfl
@[simp] theorem setFatal_cvFrom : (setFatal b).cvFrom = b.cvFrom := rfl
@[simp] theorem setFatal_cvTo : (setFatal b).cvTo = b.cvTo := rfl
@[simp] theorem setFatal_cvPad : (setFatal b).cvPad = b.cvPad := rfl
@[simp] theorem setFatal_cvAcc : (setFatal b).cvAcc = b.cvAcc := rfl
@[simp] theorem setFatal_cvBits : (setFatal b).cvBits = b.cvBits := rfl
@[simp] theorem setFatal_cvPhase : (setFatal b).cvPhase = b.cvPhase := rfl
@[simp] theorem setFatal_cvErrval : (setFatal b).cvErrval = b.cvErrval := rfl
@[simp] theorem setFatal_fatal : (setFatal b).fatal = true := rfl

/-! ### `openConversion` -/

@[simp] theorem openConversion_chk (pad : Bool) (f d : WidthField) : (openConversion pad f d b).chk = b.chk := rfl
@[simp] theorem openConversion_cvFrom (pad : Bool) (f d : WidthField) : (openConversion pad f d b).cvFrom = f := rfl
@[simp] theorem openConversion_cvTo (pad : Bool) (f d : WidthField) : (openConversion pad f d b).cvTo = d := rfl
@[simp] theorem openConversion_cvPad (pad : Bool) (f d : WidthField) : (openConversion pad f d b).cvPad = pad := rfl
@[simp] theorem openConversion_cvAcc (pad : Bool) (f d : WidthField) : (openConversion pad f d b).cvAcc = 0#7 := rfl
@[simp] theorem openConversion_cvBits (pad : Bool) (f d : WidthField) : (openConversion pad f d b).cvBits = 0#3 := rfl
@[simp] theorem openConversion_cvPhase (pad : Bool) (f d : WidthField) : (openConversion pad f d b).cvPhase = .run := rfl
@[simp] theorem openConversion_cvErrval (pad : Bool) (f d : WidthField) : (openConversion pad f d b).cvErrval = 0#8 := rfl
@[simp] theorem openConversion_fatal (pad : Bool) (f d : WidthField) : (openConversion pad f d b).fatal = b.fatal := rfl

/-! ### Answers and the port -/

@[simp] theorem respond_fst (r : Response) : (respond r b).1 = b := rfl
@[simp] theorem respond_snd (r : Response) : (respond r b).2 = r := rfl
@[simp] theorem setInputs_toBlock (ins : List HostInput) : (setInputs ins s).toBlock = s.toBlock := rfl
@[simp] theorem setInputs_inputs (ins : List HostInput) : (setInputs ins s).inputs = ins := rfl
@[simp] theorem setInputs_rsps (ins : List HostInput) : (setInputs ins s).rsps = s.rsps := rfl
@[simp] theorem deliver_toBlock (a : Block × Response) : (deliver s a).toBlock = a.1 := rfl
@[simp] theorem deliver_inputs (a : Block × Response) : (deliver s a).inputs = s.inputs := rfl
@[simp] theorem deliver_rsps (a : Block × Response) : (deliver s a).rsps = s.rsps ++ [a.2] := rfl
@[simp] theorem applyReset_toBlock : (applyReset s).toBlock = Block.reset := rfl
@[simp] theorem applyReset_inputs : (applyReset s).inputs = s.inputs := rfl
@[simp] theorem applyReset_rsps : (applyReset s).rsps = s.rsps := rfl

end Sys2Proof.Machine
end

