-- ==== Sys2Proof/Laws/Ops.lean ====
section
/-! SUPPORT. One lemma per shared operation that says everything it can do, for later proofs to cite
instead of unfolding it. -/

namespace Sys2Proof.Machine

/-! ### The port -/

/-- What a command at the port can answer: what the block answers, delivered. -/
theorem atPort_next {c : Block → Reply} {s t : State} :
    atPort c s = .next t ↔ ∃ a, c s.toBlock = .next a ∧ t = deliver s a := by
  unfold atPort
  cases c s.toBlock with
  | next a => simp [eq_comm]
  | fault f => simp
  | refused r => simp

theorem atPort_of_next {c : Block → Reply} {s : State} {a : Block × Response}
    (h : c s.toBlock = .next a) : atPort c s = .next (deliver s a) :=
  atPort_next.2 ⟨a, h, rfl⟩

/-! ### The tests before a command's own work -/

theorem unlessFatal_of_fatal {b : Block} (h : b.fatal = true) (c : Reply) :
    unlessFatal b c = .next (refuseFatal b) := by
  simp [unlessFatal, h]

theorem unlessFatal_of_live {b : Block} (h : b.fatal = false) (c : Reply) :
    unlessFatal b c = c := by
  simp [unlessFatal, h]

/-- The converter's registers are ones the rules speak of, exactly when this holds. -/
theorem converterFault_eq_none {b : Block} :
    converterFault b = none ↔
      (1 ≤ b.cvFrom.toNat ∧ b.cvFrom.toNat ≤ 8) ∧ (1 ≤ b.cvTo.toNat ∧ b.cvTo.toNat ≤ 8) ∧
        b.cvBits.toNat < b.cvTo.toNat ∧ b.cvAcc.toNat < 2 ^ b.cvBits.toNat := by
  unfold converterFault legalWidth
  split
  · split <;> simp_all
  · simp_all

theorem Block.Inv.converterFault_none {b : Block} (hi : b.Inv) (hp : b.cvPhase ≠ .idle) :
    converterFault b = none := by
  obtain ⟨hw, ha, -, -⟩ := hi
  obtain ⟨h1, h2, h3, h4, h5⟩ := hw hp
  exact converterFault_eq_none.2 ⟨⟨h1, h2⟩, ⟨h3, h4⟩, h5, ha⟩

/-- What CV.PUSH and CV.END can answer, by phase. -/
theorem whileRunning_next {b : Block} {a : Block × Response} {c : Reply}
    (h : whileRunning b c = .next a) :
    ((b.cvPhase = .idle ∨ b.cvPhase = .done) ∧ a = respond { status := .seqError } b) ∨
    (b.cvPhase = .errv ∧
      a = respond { status := .invalidInputValue, errval := b.cvErrval } b) ∨
    (b.cvPhase = .errp ∧ a = respond { status := .invalidPadding } b) ∨
    (b.cvPhase = .run ∧ converterFault b = none ∧ c = .next a) := by
  unfold whileRunning at h
  split at h
  · cases h; simp_all [raise]
  · cases h; simp_all [raise]
  · cases h; simp_all
  · cases h; simp_all
  · split at h
    · cases h
    · simp_all

theorem whileRunning_run {b : Block} (hp : b.cvPhase = .run) (hf : converterFault b = none)
    (c : Reply) : whileRunning b c = c := by
  simp [whileRunning, hp, hf]

/-! ### Conditions -/

theorem raise_invalidInputValue (v : Byte) (b : Block) :
    raise (.invalidInputValue v) b =
      ({ b with cvPhase := .errv, cvErrval := v },
        { status := .invalidInputValue, errval := v }) := rfl

theorem raise_invalidPadding (b : Block) :
    raise .invalidPadding b = ({ b with cvPhase := .errp }, { status := .invalidPadding }) := rfl

theorem raise_badWidth (b : Block) :
    raise .badWidth b = ({ b with fatal := true }, { status := .fatal }) := rfl

theorem raise_illegalCmd (b : Block) : raise .illegalCmd b = (b, { status := .illegalCmd }) := rfl

theorem raise_seqError (b : Block) : raise .seqError b = (b, { status := .seqError }) := rfl

/-- Every condition is answered by a response whose status is not OK. -/
theorem raise_response (c : Condition) (b : Block) :
    (raise c b).2.status ≠ .ok ∧ ResponseOk (raise c b).2 := by
  cases c <;> exact ⟨by simp [raise], by simp [raise, ResponseOk]⟩

/-! ### Operands -/

theorem legalWidth_iff (w : WidthField) :
    legalWidth w = true ↔ 1 ≤ w.toNat ∧ w.toNat ≤ 8 := by
  simp [legalWidth]

theorem fitsWidth_iff (f : Nat) (v : Byte) : fitsWidth f v = true ↔ v.toNat < 2 ^ f := by
  simp [fitsWidth, Nat.shiftRight_eq_div_pow, Nat.div_eq_zero_iff]

theorem highPart_toNat (b : Byte) : (highPart b).toNat = b.toNat / 32 := by
  have := b.isLt
  simp [highPart, Nat.shiftRight_eq_div_pow]
  omega

theorem lowPart_toNat (b : Byte) : (lowPart b).toNat = b.toNat % 32 := by
  simp [lowPart]

/-! ### Responses -/

/-- The valid groups of a response made from at most eight groups are those groups. -/
theorem validGroups_groupsResponse {gs : List Byte} (h : gs.length ≤ 8) :
    validGroups (groupsResponse gs) = gs := by
  have hc : (groupsResponse gs).count.toNat = gs.length := by
    simp only [groupsResponse, BitVec.toNat_ofNat]
    omega
  apply List.ext_getElem
  · simp [validGroups, hc]
    omega
  · intro k h1 h2
    simp [validGroups, groupsResponse, groupSlots, h2]

/-- A response made from at most eight groups is of the shape every response keeps. -/
theorem responseOk_groupsResponse {gs : List Byte} (h : gs.length ≤ 8) :
    ResponseOk (groupsResponse gs) := by
  have hc : (groupsResponse gs).count.toNat = gs.length := by
    simp only [groupsResponse, BitVec.toNat_ofNat]
    omega
  refine ⟨by omega, ?_, by simp [groupsResponse], by simp [groupsResponse]⟩
  apply List.ext_getElem
  · simp [hc]
  · intro k h1 h2
    have hk : gs.length ≤ gs.length % 16 + k := by omega
    simp [groupsResponse, groupSlots, hk]

/-! ### The converter's arithmetic -/

theorem regroup_bits (f t acc bits v : Nat) :
    (regroup f t acc bits v).bits = (bits + f) % t := by
  simp only [regroup]
  rw [Nat.mul_comm, Nat.mod_eq_sub_mul_div]

theorem regroup_groups_length (f t acc bits v : Nat) :
    (regroup f t acc bits v).groups.length = (bits + f) / t := by
  simp [regroup]

theorem regroup_acc_lt (f t acc bits v : Nat) :
    (regroup f t acc bits v).acc < 2 ^ (regroup f t acc bits v).bits := by
  simp only [regroup]
  have := Nat.two_pow_pos (bits + f - (bits + f) / t * t)
  exact Nat.lt_of_le_of_lt Nat.and_le_right (by omega)

/-- One push emits at most eight groups (R117). -/
theorem regroup_groups_le_eight {f t acc bits v : Nat} (hf : f ≤ 8) (ht : 1 ≤ t)
    (hb : bits < t) : (regroup f t acc bits v).groups.length ≤ 8 := by
  rw [regroup_groups_length]
  have : (bits + f) / t < 9 := by
    rw [Nat.div_lt_iff_lt_mul (by omega)]
    have : 8 * 1 ≤ 8 * t := by omega
    omega
  omega

end Sys2Proof.Machine
end

