-- ==== Sys2Proof/Laws/BitStream.lean ====
section
/-! SUPPORT. The converter's arithmetic as bit streams: what a value's digits are after each operation
on the buffer, and what `emitGroups`, `regroup` and `lastGroup` make of them. -/

namespace Sys2Proof.Machine

/-! ### The digits of a value -/

@[simp] theorem bitsOf_length (w v : Nat) : (bitsOf w v).length = w := by simp [bitsOf]

/-- The first `m` of `m + n` digits are those of the value without its low `n` bits. -/
theorem bitsOf_add (m n x : Nat) : bitsOf (m + n) x = bitsOf m (x >>> n) ++ bitsOf n x := by
  apply List.ext_getElem
  · simp
  · intro k h1 h2
    rw [bitsOf_length] at h1
    by_cases hk : k < m
    · rw [List.getElem_append_left (by simpa using hk)]
      simp only [bitsOf, List.getElem_map, List.getElem_range, Nat.testBit_shiftRight]
      congr 1
      omega
    · rw [List.getElem_append_right (by simp; omega)]
      simp only [bitsOf, List.getElem_map, List.getElem_range, List.length_map, List.length_range]
      congr 1
      omega

/-- Digits are a matter of the value modulo the power of two. -/
theorem bitsOf_congr {n x y : Nat} (h : x % 2 ^ n = y % 2 ^ n) : bitsOf n x = bitsOf n y := by
  apply List.ext_getElem
  · simp
  · intro k h1 h2
    rw [bitsOf_length] at h1
    have ht := congrArg (fun z => Nat.testBit z (n - 1 - k)) h
    simpa [bitsOf, Nat.testBit_mod_two_pow, show n - 1 - k < n by omega] using ht

theorem bitsOf_mod (n x : Nat) : bitsOf n (x % 2 ^ n) = bitsOf n x :=
  bitsOf_congr (Nat.mod_mod _ _)

theorem bitsOf_inj {n x y : Nat} (h : bitsOf n x = bitsOf n y) : x % 2 ^ n = y % 2 ^ n := by
  apply Nat.eq_of_testBit_eq
  intro i
  simp only [Nat.testBit_mod_two_pow]
  by_cases hi : i < n
  · have hk := congrArg (fun l => l[n - 1 - i]?) h
    simp [bitsOf, show n - 1 - i < n by omega, show n - 1 - (n - 1 - i) = i by omega] at hk
    simp [hi, hk]
  · simp [hi]

theorem bitsOf_zero (n : Nat) : bitsOf n 0 = List.replicate n false := by
  apply List.ext_getElem <;> simp [bitsOf]

/-- Appending a value that fits is adding it below the shifted buffer. -/
theorem shiftLeft_or_eq {a f v : Nat} (h : v < 2 ^ f) : (a <<< f) ||| v = a * 2 ^ f + v := by
  rw [← Nat.shiftLeft_add_eq_or_of_lt h, Nat.shiftLeft_eq]

/-- R41: the digits of the buffer with a value appended are the buffer's, then the value's. -/
theorem bitsOf_shiftLeft_or {f v : Nat} (n a : Nat) (h : v < 2 ^ f) :
    bitsOf (n + f) ((a <<< f) ||| v) = bitsOf n a ++ bitsOf f v := by
  rw [bitsOf_add, shiftLeft_or_eq h]
  congr 1
  · rw [Nat.shiftRight_eq_div_pow, Nat.add_comm, Nat.add_mul_div_right _ _ (Nat.two_pow_pos f),
      Nat.div_eq_of_lt h, Nat.zero_add]
  · apply bitsOf_congr
    rw [Nat.add_comm, Nat.add_mul_mod_self_right]

theorem bitsOf_shiftLeft (n z a : Nat) :
    bitsOf (n + z) (a <<< z) = bitsOf n a ++ List.replicate z false := by
  have h := bitsOf_shiftLeft_or n a (f := z) (v := 0) (Nat.two_pow_pos z)
  rw [bitsOf_zero] at h
  simpa using h

/-! ### Streams of values -/

theorem bitStream_append (t : Nat) (a b : List Byte) :
    bitStream t (a ++ b) = bitStream t a ++ bitStream t b := by simp [bitStream]

theorem bitStream_cons (t : Nat) (x : Byte) (a : List Byte) :
    bitStream t (x :: a) = bitsOf t x.toNat ++ bitStream t a := by simp [bitStream]

theorem bitStream_length (t : Nat) (l : List Byte) : (bitStream t l).length = l.length * t := by
  induction l with
  | nil => simp [bitStream]
  | cons x l ih =>
    rw [bitStream_cons, List.length_append, ih, bitsOf_length, List.length_cons]
    ring

/-- Values that fit are determined by their stream. -/
theorem bitStream_inj {t : Nat} {a b : List Byte} (ha : ∀ g ∈ a, g.toNat < 2 ^ t)
    (hb : ∀ g ∈ b, g.toNat < 2 ^ t) (hl : a.length = b.length)
    (h : bitStream t a = bitStream t b) : a = b := by
  induction a generalizing b with
  | nil => cases b <;> simp_all
  | cons x a ih =>
    cases b with
    | nil => simp at hl
    | cons y b =>
      rw [bitStream_cons, bitStream_cons] at h
      obtain ⟨h1, h2⟩ := List.append_inj h (by simp)
      have h3 := bitsOf_inj h1
      rw [Nat.mod_eq_of_lt (ha x (by simp)), Nat.mod_eq_of_lt (hb y (by simp))] at h3
      rw [BitVec.eq_of_toNat_eq h3, ih (fun g hg => ha g (by simp [hg]))
        (fun g hg => hb g (by simp [hg])) (by simpa using hl) h2]

/-! ### Groups -/

/-- A group cut from the buffer, in its slot, is the buffer's bits above `sh` modulo its width. -/
theorem group_toNat {t : Nat} (ht : t ≤ 8) (acc sh : Nat) :
    (BitVec.ofNat 8 ((acc >>> sh) &&& (2 ^ t - 1))).toNat = (acc >>> sh) % 2 ^ t := by
  have hp := Nat.pow_le_pow_right (show 2 > 0 by omega) ht
  have hm := Nat.mod_lt (acc >>> sh) (Nat.two_pow_pos t)
  rw [Nat.and_two_pow_sub_one_eq_mod, BitVec.toNat_ofNat]
  exact Nat.mod_eq_of_lt (by omega)

theorem bitsOf_group {t : Nat} (ht : t ≤ 8) (acc sh : Nat) :
    bitsOf t (BitVec.ofNat 8 ((acc >>> sh) &&& (2 ^ t - 1))).toNat = bitsOf t (acc >>> sh) := by
  rw [group_toNat ht, bitsOf_mod]

/-- Everything the emitting loop does: how many bits are left, how many groups come out, that each
fits its width, and that no bit is lost, added or moved. -/
theorem emitGroups_spec {t : Nat} (h1 : 1 ≤ t) (h8 : t ≤ 8) (acc : Nat) :
    ∀ fuel bits, bits ≤ fuel →
      (emitGroups acc t fuel bits).2 = bits % t ∧
      (emitGroups acc t fuel bits).1.length = bits / t ∧
      (∀ g ∈ (emitGroups acc t fuel bits).1, g.toNat < 2 ^ t) ∧
      bitStream t (emitGroups acc t fuel bits).1 ++ bitsOf (bits % t) acc = bitsOf bits acc := by
  intro fuel
  induction fuel with
  | zero =>
    intro bits hb
    obtain rfl : bits = 0 := by omega
    simp [emitGroups, bitStream, Nat.zero_mod]
  | succ n ih =>
    intro bits hb
    unfold emitGroups
    split
    · rename_i hle
      obtain ⟨e1, e2, e3, e4⟩ := ih (bits - t) (by omega)
      rw [← Nat.mod_eq_sub_mod hle] at e1 e4
      refine ⟨e1, ?_, ?_, ?_⟩
      · simp only [List.length_cons]
        rw [e2, Nat.div_eq_sub_div (by omega) hle]
      · intro g hg
        rcases List.mem_cons.1 hg with rfl | hg
        · rw [group_toNat h8]
          exact Nat.mod_lt _ (Nat.two_pow_pos t)
        · exact e3 g hg
      · have hs := bitsOf_add t (bits - t) acc
        rw [show t + (bits - t) = bits by omega] at hs
        rw [hs, ← e4, bitStream_cons, bitsOf_group h8, List.append_assoc]
    · rename_i hlt
      have : bits < t := by omega
      simp [Nat.mod_eq_of_lt this, Nat.div_eq_of_lt this, bitStream]

/-- The digits of a buffer of `n` whole groups and `r` bits more, cut into the groups. -/
theorem bitsOf_groups (t r a : Nat) : ∀ n, bitsOf (n * t + r) a =
    (List.range n).flatMap (fun k => bitsOf t (a >>> (n * t + r - (k + 1) * t))) ++ bitsOf r a := by
  intro n
  induction n with
  | zero => simp
  | succ n ih =>
    rw [show (n + 1) * t + r = t + (n * t + r) by ring, bitsOf_add, ih, List.range_succ_eq_map]
    simp only [List.flatMap_cons, List.flatMap_map, List.append_assoc, Nat.zero_add, Nat.one_mul]
    rw [show t + (n * t + r) - t = n * t + r by omega]
    congr 2
    apply List.flatMap_congr
    intro k _
    rw [show t + (n * t + r) - (k.succ + 1) * t = n * t + r - (k + 1) * t by
      rw [Nat.succ_eq_add_one, Nat.add_mul (k + 1) 1]; omega]

/-- Everything one push does to the buffer, as a stream: no bit is lost, added or moved. -/
theorem regroup_stream {f t acc bits v : Nat} (h8 : t ≤ 8) (hv : v < 2 ^ f) :
    bitStream t (regroup f t acc bits v).groups ++
        bitsOf (regroup f t acc bits v).bits (regroup f t acc bits v).acc =
      bitsOf bits acc ++ bitsOf f v := by
  rw [← bitsOf_shiftLeft_or _ _ hv, regroup_bits]
  have hd : (bits + f) / t * t + (bits + f) % t = bits + f := by
    rw [Nat.mul_comm]
    exact Nat.div_add_mod _ _
  have hc := bitsOf_groups t ((bits + f) % t) ((acc <<< f) ||| v) ((bits + f) / t)
  rw [hd] at hc
  rw [hc]
  congr 1
  · simp only [regroup, bitStream, List.flatMap_map]
    apply List.flatMap_congr
    intro k _
    exact bitsOf_group h8 _ _
  · simp only [regroup, Nat.and_two_pow_sub_one_eq_mod]
    rw [show bits + f - (bits + f) / t * t = (bits + f) % t by omega, bitsOf_mod]

/-- Each group of a push fits its width. -/
theorem regroup_groups_lt {f t acc bits v : Nat} (h8 : t ≤ 8) :
    ∀ g ∈ (regroup f t acc bits v).groups, g.toNat < 2 ^ t := by
  intro g hg
  simp only [regroup, List.mem_map] at hg
  obtain ⟨k, -, rfl⟩ := hg
  rw [group_toNat h8]
  exact Nat.mod_lt _ (Nat.two_pow_pos t)

/-- One push does what one turn of R110's loop does. -/
theorem regroup_eq_emitGroups {f t acc bits v : Nat} (h1 : 1 ≤ t) (h8 : t ≤ 8) (hv : v < 2 ^ f) :
    (regroup f t acc bits v).groups =
        (emitGroups ((acc <<< f) ||| v) t (bits + f) (bits + f)).1 ∧
      (regroup f t acc bits v).bits =
        (emitGroups ((acc <<< f) ||| v) t (bits + f) (bits + f)).2 := by
  obtain ⟨e1, e2, e3, e4⟩ :=
    emitGroups_spec h1 h8 ((acc <<< f) ||| v) (bits + f) (bits + f) (Nat.le_refl _)
  have hs := regroup_stream (acc := acc) (bits := bits) h8 hv
  rw [← bitsOf_shiftLeft_or _ _ hv, ← e4] at hs
  have hl : (regroup f t acc bits v).groups.length =
      (emitGroups ((acc <<< f) ||| v) t (bits + f) (bits + f)).1.length := by
    rw [regroup_groups_length, e2]
  refine ⟨bitStream_inj (regroup_groups_lt h8) e3 hl ?_, by rw [regroup_bits, e1]⟩
  exact (List.append_inj hs (by simp [bitStream_length, hl])).1

/-- Everything the last group is: when it is 0, its digits, and that it fits. -/
theorem lastGroup_spec {t acc r : Nat} (hr : r < t) :
    (lastGroup t acc r ≠ 0 ↔ ∃ b ∈ bitsOf r acc, b = true) ∧
      bitsOf t (lastGroup t acc r) = bitsOf r acc ++ List.replicate (t - r) false ∧
      lastGroup t acc r < 2 ^ t := by
  have hm : lastGroup t acc r = (acc <<< (t - r)) % 2 ^ t := by
    simp [lastGroup, Nat.and_two_pow_sub_one_eq_mod]
  have hb : bitsOf t (lastGroup t acc r) = bitsOf r acc ++ List.replicate (t - r) false := by
    have hs := bitsOf_shiftLeft r (t - r) acc
    rw [show r + (t - r) = t by omega] at hs
    rw [hm, bitsOf_mod, hs]
  have hlt : lastGroup t acc r < 2 ^ t := by
    rw [hm]
    exact Nat.mod_lt _ (Nat.two_pow_pos t)
  refine ⟨⟨fun h => ?_, ?_⟩, hb, hlt⟩
  · by_contra hc
    push Not at hc
    have hz : bitsOf r acc = List.replicate r false :=
      List.eq_replicate_iff.2 ⟨bitsOf_length _ _, fun b hb => by simpa using hc b hb⟩
    rw [hz, List.replicate_append_replicate, show r + (t - r) = t by omega, ← bitsOf_zero] at hb
    have hi := bitsOf_inj hb
    rw [Nat.mod_eq_of_lt hlt] at hi
    exact h (by simpa using hi)
  · rintro ⟨b, hb1, rfl⟩ h0
    rw [h0, bitsOf_zero] at hb
    have : true ∈ List.replicate t false := by
      rw [hb]
      simp [hb1]
    simp at this

end Sys2Proof.Machine
end

