-- ==== Sys2Proof/Laws/Exec.lean ====
section
/-! SUPPORT. What each command, each step and each run can do, once: the block's reply to each command,
the command at the port as that reply delivered, and the step as the block's own step at the port. -/

namespace Sys2Proof.Machine

/-! ### The block's reply to a command -/

/-- R153: an aborted block refuses every command alike. -/
theorem reply_of_fatal {b : Block} (h : b.fatal = true) (i : Instr) :
    reply i b = .next (refuseFatal b) := by
  cases i <;> exact unlessFatal_of_fatal h _

theorem replyNop_of_live {b : Block} (h : b.fatal = false) :
    reply .nop b = .next (respond {} b) :=
  unlessFatal_of_live h _

theorem replyCkInit_of_live {b : Block} (h : b.fatal = false) :
    reply .ckInit b = .next (respond (valueResponse seed) (setChk seed b)) :=
  unlessFatal_of_live h _

theorem replyCkSym_of_live {b : Block} (h : b.fatal = false) (sym : Sym5) :
    reply (.ckSym sym) b = .next (absorb sym b) :=
  unlessFatal_of_live h _

theorem replyCkHrph_of_live {b : Block} (h : b.fatal = false) (byte : Byte) :
    reply (.ckHrph byte) b = .next (absorb (highPart byte) b) :=
  unlessFatal_of_live h _

theorem replyCkHrpl_of_live {b : Block} (h : b.fatal = false) (byte : Byte) :
    reply (.ckHrpl byte) b = .next (absorb (lowPart byte) b) :=
  unlessFatal_of_live h _

theorem replyCkGen_of_live {b : Block} (h : b.fatal = false) (var : Variant) :
    reply (.ckGen var) b =
      .next (respond (checksumResponse (finishChecksum engineConfig b.chk var)) b) :=
  unlessFatal_of_live h _

theorem replyCkVfy_of_live {b : Block} (h : b.fatal = false) :
    reply .ckVfy b =
      .next (respond { value := b.chk, variant := identifyVariant engineConfig b.chk } b) :=
  unlessFatal_of_live h _

theorem replyCkRd_of_live {b : Block} (h : b.fatal = false) :
    reply .ckRd b = .next (respond (valueResponse b.chk) b) :=
  unlessFatal_of_live h _

theorem replyCvCfg_of_live {b : Block} (h : b.fatal = false) (pad : Bool) (f d : WidthField) :
    reply (.cvCfg pad f d) b =
      .next (if legalWidth f && legalWidth d then respond {} (openConversion pad f d b)
        else raise .badWidth b) := by
  refine (unlessFatal_of_live h _).trans ?_
  split <;> rfl

theorem replyCvPush_of_live {b : Block} (h : b.fatal = false) (byte : Byte) :
    reply (.cvPush byte) b = whileRunning b (.next (pushValue byte b)) :=
  unlessFatal_of_live h _

theorem replyCvEnd_of_live {b : Block} (h : b.fatal = false) :
    reply .cvEnd b = whileRunning b (.next (endConversion b)) :=
  unlessFatal_of_live h _

/-- A command outside the converter always replies, and writes the accumulator at most. -/
theorem reply_of_not_isBwc {i : Instr} (hi : isBwc i = false) (b : Block) :
    ∃ c r, reply i b = .next ({ b with chk := c }, r) := by
  rcases Bool.eq_false_or_eq_true b.fatal with hf | hf
  · exact ⟨b.chk, _, reply_of_fatal hf i⟩
  · cases i with
    | nop => exact ⟨b.chk, _, replyNop_of_live hf⟩
    | ckInit => exact ⟨_, _, replyCkInit_of_live hf⟩
    | ckSym sym => exact ⟨_, _, replyCkSym_of_live hf sym⟩
    | ckHrph byte => exact ⟨_, _, replyCkHrph_of_live hf byte⟩
    | ckHrpl byte => exact ⟨_, _, replyCkHrpl_of_live hf byte⟩
    | ckGen var => exact ⟨b.chk, _, replyCkGen_of_live hf var⟩
    | ckVfy => exact ⟨b.chk, _, replyCkVfy_of_live hf⟩
    | ckRd => exact ⟨b.chk, _, replyCkRd_of_live hf⟩
    | cvCfg pad f d => exact absurd hi (by simp [isBwc])
    | cvPush byte => exact absurd hi (by simp [isBwc])
    | cvEnd => exact absurd hi (by simp [isBwc])

/-- What CV.PUSH makes of the block in phase RUN. -/
theorem pushValue_cases (byte : Byte) (b : Block) :
    (byte.toNat < 2 ^ b.cvFrom.toNat ∧
      pushValue byte b =
        (let g := regroup b.cvFrom.toNat b.cvTo.toNat b.cvAcc.toNat b.cvBits.toNat byte.toNat
         respond (groupsResponse g.groups) (setBuffer g.acc g.bits b))) ∨
    (2 ^ b.cvFrom.toNat ≤ byte.toNat ∧
      pushValue byte b = raise (.invalidInputValue byte) b) := by
  unfold pushValue
  split
  · rename_i h
    exact .inl ⟨(fitsWidth_iff _ _).1 h, rfl⟩
  · rename_i h
    rw [fitsWidth_iff] at h
    exact .inr ⟨by omega, rfl⟩

/-- What CV.END makes of the block in phase RUN. -/
theorem endConversion_cases (b : Block) :
    (b.cvPad = true ∧
      endConversion b =
        respond (groupsResponse (padGroups b.cvTo.toNat b.cvAcc.toNat b.cvBits.toNat))
          (setPhase .done b)) ∨
    (b.cvPad = false ∧
      paddingFails b.cvFrom.toNat b.cvTo.toNat b.cvAcc.toNat b.cvBits.toNat = true ∧
      endConversion b = raise .invalidPadding b) ∨
    (b.cvPad = false ∧
      paddingFails b.cvFrom.toNat b.cvTo.toNat b.cvAcc.toNat b.cvBits.toNat = false ∧
      endConversion b = respond {} (setPhase .done b)) := by
  unfold endConversion
  split
  · exact .inl ⟨‹_›, rfl⟩
  · split <;> simp_all

/-! ### The command at the port, and the step -/

/-- A command at the port is the block's reply to it, delivered. -/
theorem exec_eq_atPort (i : Instr) (s : State) : exec i s = atPort (reply i) s := by
  cases i <;> rfl

theorem exec_of_reply {i : Instr} {s : State} {a : Block × Response}
    (h : reply i s.toBlock = .next a) : exec i s = .next (deliver s a) :=
  (exec_eq_atPort i s).trans (atPort_of_next h)

/-- What a command can answer. -/
theorem exec_next {i : Instr} {s t : State} :
    exec i s = .next t ↔ ∃ a, reply i s.toBlock = .next a ∧ t = deliver s a := by
  rw [exec_eq_atPort, atPort_next]

/-- Every command leaves the host's coming moves alone. -/
theorem exec_inputs {s t : State} {i : Instr} (h : exec i s = .next t) : t.inputs = s.inputs := by
  obtain ⟨a, -, rfl⟩ := exec_next.1 h
  rfl

/-- A word that decodes is run. -/
theorem step_of_decode {s : State} {w : CmdWord} {i : Instr} (h : decode w = .ok i)
    (rest : List HostInput) :
    step (setInputs (.cmd w :: rest) s) = exec i (setInputs rest s) := by
  simp only [step, setInputs_inputs, h]
  rfl

/-- What one step can be: the block waits, resets, runs a command, or meets a word that is none. -/
theorem step_cases (s : State) :
    (s.inputs = [] ∧ step s = .next s) ∨
    (∃ rest, s.inputs = .rst :: rest ∧ step s = .next (applyReset (setInputs rest s))) ∨
    (∃ w rest i, s.inputs = .cmd w :: rest ∧ decode w = .ok i ∧
      step s = exec i (setInputs rest s)) ∨
    (∃ w rest e, s.inputs = .cmd w :: rest ∧ decode w = .error e ∧
      step s = illegalWord (setInputs rest s)) := by
  unfold step
  split
  · exact .inl ⟨‹_›, rfl⟩
  · exact .inr (.inl ⟨_, ‹_›, rfl⟩)
  · split
    · exact .inr (.inr (.inl ⟨_, _, _, ‹_›, ‹_›, rfl⟩))
    · exact .inr (.inr (.inr ⟨_, _, _, ‹_›, ‹_›, rfl⟩))

/-- A word that is no command writes no register. -/
theorem illegalWord_eq (s : State) :
    illegalWord s =
      .next (deliver s (s.toBlock, { status := if s.fatal = true then .fatal else .illegalCmd })) := by
  refine atPort_of_next ?_
  cases hf : s.fatal with
  | true => exact (unlessFatal_of_fatal hf _).trans (by simp [refuseFatal, respond])
  | false => exact (unlessFatal_of_live hf _).trans (by simp [raise, respond])

/-! ### Runs -/

theorem serve_nil (s : State) : serve [] s = .next (setInputs [] s) := rfl

/-- A run takes its first move and goes on with the rest. -/
theorem serve_cons (m : HostInput) (ms : List HostInput) {s t : State}
    (h : step (setInputs (m :: ms) s) = .next t) (hi : t.inputs = ms) :
    serve (m :: ms) s = serve ms t := by
  have ht : setInputs ms t = t := by
    subst hi
    rfl
  unfold serve
  rw [ht]
  show Host.Core.run core (ms.length + 1) _ = _
  simp only [Host.Core.run]
  have : core.step (setInputs (m :: ms) s) = .next t := h
  rw [this]

/-- A run of commands runs the first and goes on with the rest. -/
theorem serve_command {s t : State} {i : Instr} (is : List Instr)
    (hd : decode (encode i) = .ok i) (h : exec i (setInputs (commands is) s) = .next t) :
    serve (commands (i :: is)) s = serve (commands is) t :=
  serve_cons _ _ ((step_of_decode hd _).trans h) (exec_inputs h)

end Sys2Proof.Machine
end

