-- ==== Sys2Proof/Laws/PerInstr.lean ====
section
/-! SUPPORT. Facts about every command as syntax, one lemma per constructor: the word that the
encoder gives a command matches the command's own row of R63's table. -/

namespace Sys2Proof.Laws

/-- R63: under the mask of its row, the command's word is the row's match value. -/
def MatchesRow.Statement (i : Instr) : Prop :=
  encode i &&& rowMask i = rowMatch i

theorem MatchesRow.nop : MatchesRow.Statement .nop := by
  unfold MatchesRow.Statement; decide

theorem MatchesRow.ckInit : MatchesRow.Statement .ckInit := by
  unfold MatchesRow.Statement; decide

theorem MatchesRow.ckSym (sym : Sym5) : MatchesRow.Statement (.ckSym sym) := by
  unfold MatchesRow.Statement; revert sym; decide

theorem MatchesRow.ckHrph (byte : Byte) : MatchesRow.Statement (.ckHrph byte) := by
  unfold MatchesRow.Statement; revert byte; decide

theorem MatchesRow.ckHrpl (byte : Byte) : MatchesRow.Statement (.ckHrpl byte) := by
  unfold MatchesRow.Statement; revert byte; decide

theorem MatchesRow.ckGen (var : Variant) : MatchesRow.Statement (.ckGen var) := by
  unfold MatchesRow.Statement; cases var <;> decide

theorem MatchesRow.ckVfy : MatchesRow.Statement .ckVfy := by
  unfold MatchesRow.Statement; decide

theorem MatchesRow.ckRd : MatchesRow.Statement .ckRd := by
  unfold MatchesRow.Statement; decide

theorem MatchesRow.cvCfg (pad : Bool) (fromBits toBits : WidthField) :
    MatchesRow.Statement (.cvCfg pad fromBits toBits) := by
  unfold MatchesRow.Statement; revert pad fromBits toBits; decide

theorem MatchesRow.cvPush (byte : Byte) : MatchesRow.Statement (.cvPush byte) := by
  unfold MatchesRow.Statement; revert byte; decide

theorem MatchesRow.cvEnd : MatchesRow.Statement .cvEnd := by
  unfold MatchesRow.Statement; decide

end Sys2Proof.Laws
end

