-- ==== Sys2Proof/Machine/Assembler.lean ====
section
/-! DEFINITION. The text of the assembler (30_encoding.md R71, R72): one command per line, read from
a list of characters. What R71 leaves open about the text is log entry 9. -/

namespace Sys2Proof.Machine

/-- What a line of text is cut into. -/
inductive Token where
  | word (s : List Char)
  | charLit (c : Char)
  | strLit (s : List Char)
  | comma
  | openBracket
  | closeBracket
deriving DecidableEq, Repr

/-- Where in a line the reader is. -/
inductive LexMode where
  | plain
  | inWord
  | inString
  | charOpen
  | charClose
  | comment
  | bad
deriving DecidableEq, Repr

/-- The reader of one line: the characters of the token under way and the tokens read, both with the
last one first. -/
structure LexState where
  mode : LexMode
  cur : List Char
  out : List Token
deriving DecidableEq, Repr

/-- A character of a mnemonic, a number or a name. -/
def isWordChar (c : Char) : Bool :=
  c.isAlphanum || c == '.'

/-- End the word under way, if there is one. -/
def lexFlush (l : LexState) : LexState :=
  match l.mode with
  | .inWord => { mode := .plain, cur := [], out := .word l.cur.reverse :: l.out }
  | _ => l

/-- A character between tokens. `;` starts a comment that runs to the end of the line. -/
def lexBetween (l : LexState) (c : Char) : LexState :=
  if c = ' ' || c = '\t' then l
  else if c = ';' then { l with mode := .comment }
  else if c = ',' then { l with out := .comma :: l.out }
  else if c = '[' then { l with out := .openBracket :: l.out }
  else if c = ']' then { l with out := .closeBracket :: l.out }
  else if c = '"' then { l with mode := .inString }
  else if c = '\'' then { l with mode := .charOpen }
  else { l with mode := .bad }

/-- Read one character. -/
def lexChar (l : LexState) (c : Char) : LexState :=
  match l.mode with
  | .comment => l
  | .bad => l
  | .inString =>
    if c = '"' then { mode := .plain, cur := [], out := .strLit l.cur.reverse :: l.out }
    else { l with cur := c :: l.cur }
  | .charOpen => { l with mode := .charClose, out := .charLit c :: l.out }
  | .charClose => if c = '\'' then { l with mode := .plain } else { l with mode := .bad }
  | .plain => if isWordChar c then { l with mode := .inWord, cur := [c] } else lexBetween l c
  | .inWord =>
    if isWordChar c then { l with cur := c :: l.cur } else lexBetween (lexFlush l) c

/-- The tokens of a line, in order; nothing for a line that cannot be cut into tokens. -/
def tokens (line : List Char) : Option (List Token) :=
  let l := lexFlush (line.foldl lexChar { mode := .plain, cur := [], out := [] })
  match l.mode with
  | .plain => some l.out.reverse
  | .comment => some l.out.reverse
  | _ => none

/-- The value of a digit in base `base`. -/
def digitValue (base : Nat) (c : Char) : Option Nat :=
  let n :=
    if c.isDigit then c.toNat - '0'.toNat
    else if 'a' ≤ c && c ≤ 'f' then c.toNat - 'a'.toNat + 10
    else if 'A' ≤ c && c ≤ 'F' then c.toNat - 'A'.toNat + 10
    else base
  if n < base then some n else none

/-- The number `cs` writes in base `base`, after the digits that make up `acc`. -/
def digits (base : Nat) : (acc : Nat) → List Char → Option Nat
  | acc, [] => some acc
  | acc, c :: cs =>
    match digitValue base c with
    | some n => digits base (acc * base + n) cs
    | none => none

/-- R71: a number is decimal, or hexadecimal with `0x`. -/
def number : List Char → Option Nat
  | [] => none
  | '0' :: 'x' :: c :: cs => digits 16 0 (c :: cs)
  | c :: cs => digits 10 0 (c :: cs)

/-- R71: the ASCII code of a character; a character that has none is refused. -/
def asciiCode (c : Char) : Option Nat :=
  if c.toNat < 128 then some c.toNat else none

/-- R71: the operand of CK.HRPH and CK.HRPL, a number or a one-character literal. -/
def byteOperand : Token → Option Nat
  | .word s => number s
  | .charLit c => asciiCode c
  | _ => none

/-- A number operand. -/
def numberOperand : Token → Option Nat
  | .word s => number s
  | _ => none

/-- R71: the operand of CK.GEN, `A` or `B`. -/
def variantOperand : Token → Option Variant
  | .word ['A'] => some .a
  | .word ['B'] => some .b
  | _ => none

/-- R71: the third operand of CV.CFG, `pad` or `nopad`. -/
def padOperand : Token → Option Bool
  | .word ['p', 'a', 'd'] => some true
  | .word ['n', 'o', 'p', 'a', 'd'] => some false
  | _ => none

/-- The rest of a bracketed list, after at least one number: `, v` any number of times, then `]`. -/
def listTail : List Token → Option (List Nat)
  | [.closeBracket] => some []
  | .comma :: t :: rest =>
    match numberOperand t, listTail rest with
    | some n, some ns => some (n :: ns)
    | _, _ => none
  | _ => none

/-- R72: a list operand, `[v0, ..., vk]` or `[]`. -/
def listOperand : List Token → Option (List Nat)
  | [.openBracket, .closeBracket] => some []
  | .openBracket :: t :: rest =>
    match numberOperand t, listTail rest with
    | some n, some ns => some (n :: ns)
    | _, _ => none
  | _ => none

/-- R71, R72: the line a mnemonic and its operands make. -/
def parseCommand (name : List Char) (ops : List Token) : Option AsmLine :=
  if name = "NOP".toList then
    match ops with | [] => some .nop | _ => none
  else if name = "CK.INIT".toList then
    match ops with | [] => some .ckInit | _ => none
  else if name = "CK.SYM".toList then
    match ops with | [t] => (numberOperand t).map .ckSym | _ => none
  else if name = "CK.HRPH".toList then
    match ops with | [t] => (byteOperand t).map .ckHrph | _ => none
  else if name = "CK.HRPL".toList then
    match ops with | [t] => (byteOperand t).map .ckHrpl | _ => none
  else if name = "CK.GEN".toList then
    match ops with | [t] => (variantOperand t).map .ckGen | _ => none
  else if name = "CK.VFY".toList then
    match ops with | [] => some .ckVfy | _ => none
  else if name = "CK.RD".toList then
    match ops with | [] => some .ckRd | _ => none
  else if name = "CV.CFG".toList then
    match ops with
    | [f, .comma, t, .comma, p] =>
      match numberOperand f, numberOperand t, padOperand p with
      | some fromBits, some toBits, some pad => some (.cvCfg fromBits toBits pad)
      | _, _, _ => none
    | _ => none
  else if name = "CV.PUSH".toList then
    match ops with | [t] => (numberOperand t).map .cvPush | _ => none
  else if name = "CV.END".toList then
    match ops with | [] => some .cvEnd | _ => none
  else if name = "CK.SEP".toList then
    match ops with | [] => some .ckSep | _ => none
  else if name = "CK.HRP".toList then
    match ops with | [.strLit s] => (s.mapM asciiCode).map .ckHrp | _ => none
  else if name = "CK.DATA".toList then (listOperand ops).map .ckData
  else if name = "CV.DATA".toList then (listOperand ops).map .cvData
  else none

/-- R71: the command of a line of text; a line that holds no token holds no command. -/
def parseLine (line : List Char) : Option (List AsmLine) :=
  match tokens line with
  | some [] => some []
  | some (.word name :: ops) => (parseCommand name ops).map fun l => [l]
  | _ => none

/-- R71: the words of a program, one line of text each. -/
def assembleText : List (List Char) → Option (List CmdWord)
  | [] => some []
  | line :: rest =>
    match parseLine line with
    | none => none
    | some ls =>
      match ls.mapM assembleLine, assembleText rest with
      | some ws, some more => some (ws.flatten ++ more)
      | _, _ => none

end Sys2Proof.Machine
end

