-- ==== Sys2Proof/Tests/Slice0.lean ====
section
/-! SUPPORT. Small tests. Expected results are the spec's own vectors (95_test_vectors.md, cited per
test) or hand calculation from the rule named; then one witness per hypothesis or clause of the
obligations, at the boundary of its range. -/

namespace Sys2Proof.Tests

open Sys2Proof.Machine

/-! ### Helpers -/

/-- A live block whose accumulator holds `c`. -/
def holding (c : Chk) : State :=
  { State.reset with chk := c }

/-- The aborted block of program L3-4. -/
def aborted : State :=
  { State.reset with chk := 0x00000025#30, fatal := true }

/-- A conversion in phase RUN. -/
def running (fromBits toBits : WidthField) (pad : Bool) (acc : BitVec 7) (bits : BitVec 3) : State :=
  { State.reset with
    cvFrom := fromBits
    cvTo := toBits
    cvPad := pad
    cvAcc := acc
    cvBits := bits
    cvPhase := .run }

/-- The converter after the errors of program L3-3 (lines 19 and 14), and after line 10. -/
def afterErrv : State :=
  { running 5#4 8#4 false 3#7 5#3 with cvPhase := .errv, cvErrval := 32#8 }
def afterErrp : State :=
  { running 5#4 8#4 false 1#7 2#3 with cvPhase := .errp }
def afterDone : State :=
  { running 5#4 8#4 false 0#7 4#3 with cvPhase := .done }

/-- The last response of an outcome. -/
def answer (o : Outcome) : Option Response :=
  (nextState? o).bind fun t => t.rsps.getLast?

/-- The converter's registers after an outcome: phase, buffer, number of bits, offending value. -/
def converter (o : Outcome) : Option (Phase × BitVec 7 × BitVec 3 × Byte) :=
  (nextState? o).map fun t => (t.cvPhase, t.cvAcc, t.cvBits, t.cvErrval)

/-- The block with the word `w` handed over. -/
def offered (w : CmdWord) (s : State) : State :=
  { s with inputs := [.cmd w] }

/-! ### WellFormed: an ill-formed line for each check, and the last value in range -/

theorem test_wf_sym : AsmLine.wellFormed (.ckSym 32) = false ∧
    AsmLine.wellFormed (.ckSym 31) = true := by decide
theorem test_wf_hrph : AsmLine.wellFormed (.ckHrph 256) = false ∧
    AsmLine.wellFormed (.ckHrph 255) = true := by decide
theorem test_wf_hrpl : AsmLine.wellFormed (.ckHrpl 256) = false ∧
    AsmLine.wellFormed (.ckHrpl 255) = true := by decide
theorem test_wf_push : AsmLine.wellFormed (.cvPush 256) = false ∧
    AsmLine.wellFormed (.cvPush 255) = true := by decide
theorem test_wf_cfg_from : AsmLine.wellFormed (.cvCfg 16 5 true) = false := by decide
theorem test_wf_cfg_to : AsmLine.wellFormed (.cvCfg 5 16 true) = false := by decide
/-- R71: the widths 0 and 9 to 15 are not refused. -/
theorem test_wf_cfg_bad_widths_pass : AsmLine.wellFormed (.cvCfg 0 15 true) = true := by decide
theorem test_wf_hrp : AsmLine.wellFormed (.ckHrp [255, 256]) = false ∧
    AsmLine.wellFormed (.ckHrp []) = true := by decide
theorem test_wf_data : AsmLine.wellFormed (.ckData [31, 32]) = false := by decide
theorem test_wf_cv_data : AsmLine.wellFormed (.cvData [255, 256]) = false := by decide

/-! ### Decoding: every constructor by a word written out from its pattern string (R61, R63) -/

theorem test_decode_nop : decode 0b0000000000000000#16 = .ok .nop := by decide
theorem test_decode_ckInit : decode 0b0001000000000000#16 = .ok .ckInit := by decide
theorem test_decode_ckSym : decode 0b0010000000010011#16 = .ok (.ckSym 19#5) := by decide
theorem test_decode_ckHrph : decode 0b0011000001101000#16 = .ok (.ckHrph 0x68#8) := by decide
theorem test_decode_ckHrpl : decode 0b0100000010000001#16 = .ok (.ckHrpl 0x81#8) := by decide
theorem test_decode_ckGen : decode 0b0101000000000000#16 = .ok (.ckGen .a) ∧
    decode 0b0101000000000001#16 = .ok (.ckGen .b) := by decide
theorem test_decode_ckVfy : decode 0b0110000000000000#16 = .ok .ckVfy := by decide
theorem test_decode_ckRd : decode 0b0111000000000000#16 = .ok .ckRd := by decide
theorem test_decode_cvCfg : decode 0b1000000111000011#16 = .ok (.cvCfg true 12#4 3#4) := by decide
theorem test_decode_cvPush : decode 0b1001000011010010#16 = .ok (.cvPush 0xd2#8) := by decide
theorem test_decode_cvEnd : decode 0b1010000000000000#16 = .ok .cvEnd := by decide

/-- L2-G: the illegal words of the table, each refused by name. -/
theorem test_decode_illegal :
    decode 0x0001#16 = .error (.mustBeZero 0#4) ∧ decode 0x1001#16 = .error (.mustBeZero 1#4) ∧
    decode 0x2020#16 = .error (.mustBeZero 2#4) ∧ decode 0x3100#16 = .error (.mustBeZero 3#4) ∧
    decode 0x5002#16 = .error (.mustBeZero 5#4) ∧ decode 0x8200#16 = .error (.mustBeZero 8#4) ∧
    decode 0xa001#16 = .error (.mustBeZero 10#4) ∧
    decode 0xb000#16 = .error (.reservedOpcode 11#4) ∧
    decode 0xffff#16 = .error (.reservedOpcode 15#4) := by decide

/-- The word of the host's table question: sixteen bits, numbered as R60 numbers them. -/
theorem test_decodeTableWord : decodeTableWord 16 0x8185 = some (.cvCfg true 8#4 5#4) ∧
    decodeTableWord 16 0xb000 = none := by decide

/-! ### The step -/

/-- The very next step from reset runs the command placed (L2-G: 0x201f answers 0x3f). -/
theorem test_withFetchWord_runs :
    answer (step (State.reset.withFetchWord 16 0x201f)) = some { value := 0x3f#30 } := by decide

/-- L3-4 line 9: an illegal word sent to an aborted block is answered FATAL. -/
theorem test_step_illegal_on_aborted :
    nextState? (step (offered 0xb000#16 aborted)) =
      some { aborted with rsps := [{ status := .fatal }] } := by decide

/-- R180: reset clears `fatal` and everything else, and answers nothing. -/
theorem test_step_reset :
    nextState? (step { aborted with inputs := [.rst], rsps := [{ status := .fatal }] }) =
      some { State.reset with rsps := [{ status := .fatal }] } := by decide

/-- L2-G 0x81ff: the block's own step, from the reset block and the word, to state and response. -/
theorem test_blockStep : (match blockStep Block.reset 0x81ff#16 with
    | .next a => some a
    | .fault _ => none
    | .refused _ => none) = some ({ Block.reset with fatal := true }, { status := .fatal }) := by
  decide

/-! ### The checksum commands, one step each -/

theorem test_nop : nextState? (exec .nop (holding 0x23d07460#30)) =
    some { holding 0x23d07460#30 with rsps := [{}] } := by decide
/-- L3-4 line 8. -/
theorem test_nop_aborted : answer (exec .nop aborted) = some { status := .fatal } := by decide

/-- The example of R88. -/
theorem test_ckInit : nextState? (exec .ckInit (holding 0x23d07460#30)) =
    some { holding 1#30 with rsps := [{ value := 1#30 }] } := by decide

/-- The example of R89. -/
theorem test_ckSym : nextState? (exec (.ckSym 1#5) (holding 0x036bb89a#30)) =
    some { holding 0x161d44f3#30 with rsps := [{ value := 0x161d44f3#30 }] } := by decide
/-- L2-A, the row with all five generators and the greatest symbol. -/
theorem test_ckSym_all_feedback :
    answer (exec (.ckSym 31#5) (holding 0x3fffffff#30)) = some { value := 0x2b326eb4#30 } := by
  decide

/-- L2-G 0x30ff: absorbs 7. -/
theorem test_ckHrph : answer (exec (.ckHrph 0xff#8) State.reset) = some { value := 0x27#30 } := by
  decide
/-- The example of R90: the letter b absorbs 3. -/
theorem test_ckHrph_letter :
    (nextState? (exec (.ckHrph 0x62#8) State.reset)).map (·.chk) = some 0x23#30 := by decide

/-- The example of R91: absorbs 2. -/
theorem test_ckHrpl :
    (nextState? (exec (.ckHrpl 0x62#8) (holding 0x04dcb499#30))).map (·.chk) =
      some 0x3dc61d4f#30 := by decide
/-- L2-G 0x40ff: absorbs 31. -/
theorem test_ckHrpl_top : answer (exec (.ckHrpl 0xff#8) State.reset) = some { value := 0x3f#30 } := by
  decide

/-- The example of R92, Variant-A; the accumulator stays. -/
theorem test_ckGen_a : nextState? (exec (.ckGen .a) (holding 0x23d07460#30)) =
    some { holding 0x23d07460#30 with
      rsps := [{ count := 6#4, value := 0x2b3c5439#30,
                 group := #v[21#8, 19#8, 24#8, 21#8, 1#8, 25#8, 0#8, 0#8] }] } := by decide
/-- The example of R92, Variant-B. -/
theorem test_ckGen_b : (answer (exec (.ckGen .b) (holding 0x23d07460#30))).map
    (fun r => (r.value, validGroups r)) =
      some (0x00f4649b#30, [0#8, 15#8, 8#8, 25#8, 4#8, 27#8]) := by decide

/-- The examples of R93: Variant-B, and no variant. -/
theorem test_ckVfy_b : answer (exec .ckVfy (holding 0x2bc830a3#30)) =
    some { value := 0x2bc830a3#30, variant := some .b } := by decide
theorem test_ckVfy_none : nextState? (exec .ckVfy (holding 0#30)) =
    some { holding 0#30 with rsps := [{}] } := by decide

/-- The example of R94, and L3-4 line 7. -/
theorem test_ckRd : answer (exec .ckRd State.reset) = some { value := 1#30 } := by decide
theorem test_ckRd_aborted : answer (exec .ckRd aborted) = some { status := .fatal } := by decide

/-! ### The converter commands, one step each -/

/-- L3-3 line 22: accepted out of ERRV, with the stored value cleared. -/
theorem test_cvCfg : nextState? (exec (.cvCfg true 5#4 8#4) afterErrv) =
    some { running 5#4 8#4 true 0#7 0#3 with rsps := [{}] } := by decide
/-- R160, last sentence: a bad width in ERRV writes `fatal` alone (one good width, one bad). -/
theorem test_cvCfg_bad_width : nextState? (exec (.cvCfg true 9#4 5#4) afterErrv) =
    some { afterErrv with fatal := true, rsps := [{ status := .fatal }] } := by decide

/-- The example of R117, second push: two groups, oldest first. -/
theorem test_cvPush : nextState? (exec (.cvPush 0x1e#8) (running 8#4 5#4 true 5#7 3#3)) =
    some { running 8#4 5#4 true 0#7 1#3 with
      rsps := [{ count := 2#4, group := #v[20#8, 15#8, 0#8, 0#8, 0#8, 0#8, 0#8, 0#8] }] } := by
  decide
/-- L3-3 line 19: a value too wide by one. -/
theorem test_cvPush_too_wide : nextState? (exec (.cvPush 32#8) (running 5#4 8#4 false 3#7 5#3)) =
    some { afterErrv with rsps := [{ status := .invalidInputValue, errval := 32#8 }] } := by decide

/-- L2-F, the last group of 8 to 7 with padding: left-justified. -/
theorem test_cvEnd_pads : nextState? (exec .cvEnd (running 8#4 7#4 true 3#7 2#3)) =
    some { running 8#4 7#4 true 3#7 2#3 with
      cvPhase := .done
      rsps := [{ count := 1#4, group := #v[96#8, 0#8, 0#8, 0#8, 0#8, 0#8, 0#8, 0#8] }] } := by decide
/-- L3-3 line 14: fewer leftover bits than an input symbol, but not all zero (C2). -/
theorem test_cvEnd_padding_error : nextState? (exec .cvEnd (running 5#4 8#4 false 1#7 2#3)) =
    some { afterErrp with rsps := [{ status := .invalidPadding }] } := by decide

/-! ### The functions, on the vectors of L2 -/

/-- L2-A: bit `i` above the mask selects generator `i`. -/
theorem test_polymodStep_selects :
    polymodStep engineConfig 0x02000000#30 0#5 = 0x3b6a57b2#30 ∧
    polymodStep engineConfig 0x04000000#30 0#5 = 0x26508e6d#30 ∧
    polymodStep engineConfig 0x08000000#30 0#5 = 0x1ea119fa#30 ∧
    polymodStep engineConfig 0x10000000#30 0#5 = 0x3d4233dd#30 ∧
    polymodStep engineConfig 0x20000000#30 0#5 = 0x2a1462b3#30 := by decide

/-- L2-C: bytes ff 00 7e. -/
theorem test_expandPrefix : expandPrefix [0xff#8, 0x00#8, 0x7e#8] =
    [7#5, 0#5, 3#5, 0#5, 31#5, 0#5, 30#5] := by decide

/-- L1-2: the document's own string a12uel5l, from the other side. -/
theorem test_createChecksum : createChecksum engineConfig [0x61#8] [] .a =
    [10#5, 28#5, 25#5, 31#5, 20#5, 31#5] := by decide

/-- L2-E, third row: the last symbol changed. -/
theorem test_verify_none :
    verifyAndIdentifyVariant engineConfig [0x61#8] [10#5, 28#5, 25#5, 31#5, 20#5, 30#5] = none := by
  decide

def five : Width := ⟨5, by decide, by decide⟩
def eight : Width := ⟨8, by decide, by decide⟩

/-- L2-F: the vector that tells the two readings of R114 apart, and 8 to 5 with padding. -/
theorem test_convertBits : convertBits [31#8, 29#8] five eight false = .invalidPadding ∧
    convertBits [0x75#8, 0x1e#8] eight five true = .ok [14#8, 20#8, 15#8, 0#8] := by decide

/-- L2-F: five leftover zero bits are a whole input symbol; the first offender is reported. -/
theorem test_convertBits_errors : convertBits [0#8] five eight false = .invalidPadding ∧
    convertBits [3#8, 32#8, 1#8] five eight true = .invalidInputValue 32#8 := by decide

/-! ### The assembler (the lines of L3) -/

theorem test_assemble_cfg : assembleText ["CV.CFG 8, 5, pad ; repack".toList] = some [0x8185#16] := by
  decide
theorem test_assemble_literals : assembleText ["CK.HRPH 'b'".toList, "CV.PUSH 0x1e".toList] =
    some [0x3062#16, 0x901e#16] := by decide
theorem test_assemble_hrp : assembleText ["CK.HRP \"a\"".toList] =
    some [0x3061#16, 0x2000#16, 0x4061#16] := by decide
theorem test_assemble_refuses : assembleText ["CK.SYM 32".toList] = none := by decide

/-! ### Witnesses: the hypotheses of each obligation hold together somewhere

Named after the obligation, with a suffix where it has several clauses. -/

theorem witness_DecodeUndoesEncode : Instr.wellFormed (.cvCfg true 15#4 15#4) = true ∧
    Instr.wellFormed (.ckSym 31#5) = true := by decide

theorem witness_EncodeUndoesDecode : decode 0x81ff#16 = .ok (.cvCfg true 15#4 15#4) := by decide

theorem witness_DecodedExactlyWhenMaskMatches :
    0x201f#16 &&& rowMask (.ckSym 0#5) = rowMatch (.ckSym 0#5) ∧
    0x2020#16 &&& rowMask (.ckSym 0#5) ≠ rowMatch (.ckSym 0#5) := by decide

/-- Each way to be illegal at its boundary, with the last legal word below it. -/
theorem witness_IllegalWords_edges :
    (decode 0xb000#16).toOption = none ∧ (decode 0xa000#16).toOption = some .cvEnd ∧
    (decode 0x6001#16).toOption = none ∧ (decode 0x6000#16).toOption = some .ckVfy ∧
    (decode 0x2020#16).toOption = none ∧ (decode 0x201f#16).toOption = some (.ckSym 31#5) ∧
    (decode 0x9100#16).toOption = none ∧ (decode 0x90ff#16).toOption = some (.cvPush 255#8) ∧
    (decode 0x5002#16).toOption = none ∧ (decode 0x5001#16).toOption = some (.ckGen .b) ∧
    (decode 0x8200#16).toOption = none ∧
    (decode 0x81ff#16).toOption = some (.cvCfg true 15#4 15#4) := by decide

theorem witness_IllegalWords_step :
    (offered 0xb000#16 State.reset).fatal = false ∧
    (offered 0xb000#16 State.reset).inputs = .cmd 0xb000#16 :: [] ∧
    decode 0xb000#16 = .error (.reservedOpcode 11#4) := by decide

theorem witness_AssembledLines : AsmLine.wellFormed (.ckHrp [0, 255]) = true ∧
    AsmLine.wellFormed (.ckHrp [256]) = false := by decide

theorem witness_StepRuns : (offered 0x8185#16 State.reset).inputs = .cmd 0x8185#16 :: [] ∧
    decode 0x8185#16 = .ok (.cvCfg true 8#4 5#4) ∧
    Instr.wellFormed (.cvCfg true 8#4 5#4) = true ∧ State.reset.inputs = [] := by decide

theorem witness_OnlyReset_reset :
    ({ aborted with inputs := [.rst, .cmd 0#16] } : State).inputs = .rst :: [.cmd 0#16] := by decide

theorem witness_OnlyReset_other : (offered 0x7000#16 aborted).inputs.head? ≠ some .rst ∧
    (offered 0x7000#16 aborted).fatal = true ∧
    ∃ t, step (offered 0x7000#16 aborted) = .next t ∧ t.cvPhase = .idle :=
  ⟨by decide, by decide, _, rfl, by decide⟩

theorem witness_EveryStepKeeps : (offered 0x90ff#16 (running 8#4 1#4 true 0#7 0#3)).Inv ∧
    ∃ t, step (offered 0x90ff#16 (running 8#4 1#4 true 0#7 0#3)) = .next t :=
  ⟨by decide, _, rfl⟩

theorem witness_NoStepStops : (running 8#4 8#4 false 127#7 7#3).Inv ∧ afterErrv.Inv ∧
    afterErrp.Inv ∧ afterDone.Inv ∧ State.reset.Inv :=
  ⟨by decide, by decide, by decide, by decide, by decide⟩

/-- Each width just out of range, and each half of the buffer's description just broken. -/
theorem witness_BrokenConverter :
    (running 0#4 8#4 true 0#7 0#3).fatal = false ∧ (running 0#4 8#4 true 0#7 0#3).cvPhase = .run ∧
    (running 0#4 8#4 true 0#7 0#3).cvFrom.toNat = 0 ∧
    8 < (running 9#4 8#4 true 0#7 0#3).cvFrom.toNat ∧
    (running 8#4 0#4 true 0#7 0#3).cvTo.toNat = 0 ∧
    8 < (running 8#4 9#4 true 0#7 0#3).cvTo.toNat ∧
    (running 8#4 5#4 true 0#7 5#3).cvTo.toNat ≤ (running 8#4 5#4 true 0#7 5#3).cvBits.toNat ∧
    2 ^ (running 8#4 5#4 true 8#7 3#3).cvBits.toNat ≤
      (running 8#4 5#4 true 8#7 3#3).cvAcc.toNat := by decide

/-- Both sides of the equivalence, on L2-G's first bad width and its neighbour. -/
theorem witness_RunFromReset : decode 0x8095#16 = .ok (.cvCfg false 9#4 5#4) ∧
    hasBadWidth (.cvCfg false 9#4 5#4) = true ∧ hasBadWidth (.cvCfg false 8#4 5#4) = false := by
  decide

theorem witness_BadWidth_edges : State.reset.fatal = false ∧ (0#4 : WidthField).toNat < 1 ∧
    8 < (9#4 : WidthField).toNat ∧ aborted.fatal = true := by decide

theorem witness_TooWideValue :
    (running 5#4 8#4 false 3#7 5#3).fatal = false ∧ (running 5#4 8#4 false 3#7 5#3).cvPhase = .run ∧
    (running 5#4 8#4 false 3#7 5#3).Inv ∧
    2 ^ (running 5#4 8#4 false 3#7 5#3).cvFrom.toNat ≤ (32#8 : Byte).toNat := by decide

/-- Both grounds: a whole input symbol left over, all zero; and one bit of 1. -/
theorem witness_BadPadding :
    (running 5#4 8#4 false 0#7 5#3).fatal = false ∧ (running 5#4 8#4 false 0#7 5#3).cvPhase = .run ∧
    (running 5#4 8#4 false 0#7 5#3).Inv ∧ (running 5#4 8#4 false 0#7 5#3).cvPad = false ∧
    (running 5#4 8#4 false 0#7 5#3).cvFrom.toNat ≤ (running 5#4 8#4 false 0#7 5#3).cvBits.toNat ∧
    (running 5#4 8#4 false 1#7 2#3).Inv ∧ (running 5#4 8#4 false 1#7 2#3).cvAcc ≠ 0#7 := by decide

theorem witness_ConverterRefuses : State.reset.fatal = false ∧ State.reset.cvPhase = .idle ∧
    afterDone.fatal = false ∧ afterDone.cvPhase = .done := by decide

theorem witness_InputErrorsStick : afterErrv.fatal = false ∧ afterErrv.cvPhase = .errv ∧
    afterErrp.fatal = false ∧ afterErrp.cvPhase = .errp ∧
    hasBadWidth (.cvCfg false 1#4 8#4) = false ∧
    ∃ t, exec (.cvCfg false 1#4 8#4) afterErrp = .next t :=
  ⟨by decide, by decide, by decide, by decide, by decide, _, rfl⟩

/-- The hypotheses that every clause shares. -/
theorem witness_FirstCondition : (offered 0x9020#16 afterErrv).Inv ∧
    (offered 0x9020#16 afterErrv).inputs = .cmd 0x9020#16 :: [] := by decide

/-- One word and state for each clause, by the status that the spec gives it: (1) and (2), (3),
(4), (5), then the value test and the padding test just failing and just passing. -/
theorem witness_FirstCondition_clauses :
    aborted.Inv ∧ (decode 0xb000#16).toOption = none ∧
    (offered 0x8095#16 State.reset).Inv ∧ hasBadWidth (.cvCfg false 9#4 5#4) = true ∧
    afterDone.Inv ∧ afterErrv.Inv ∧ afterErrp.Inv ∧
    (running 5#4 8#4 false 0#7 0#3).Inv ∧ ¬ (2 ^ 5 ≤ (31#8 : Byte).toNat) ∧
    2 ^ 5 ≤ (32#8 : Byte).toNat ∧
    (running 5#4 8#4 true 1#7 2#3).Inv ∧ (running 5#4 8#4 false 0#7 4#3).Inv ∧
    (running 5#4 8#4 false 0#7 5#3).Inv :=
  ⟨by decide, by decide, by decide, by decide, by decide, by decide, by decide, by decide, by decide,
    by decide, by decide, by decide, by decide⟩

theorem witness_PhaseMoves : (∃ t, exec .nop aborted = .next t ∧ aborted.fatal = true) ∧
    (∃ t, exec .ckRd State.reset = .next t ∧ isBwc .ckRd = false) ∧
    (∃ t, exec (.cvCfg true 8#4 1#4) State.reset = .next t) ∧
    (∃ t, exec (.cvCfg true 9#4 1#4) State.reset = .next t) ∧
    (∃ t, exec (.cvPush 31#8) (running 5#4 8#4 false 0#7 0#3) = .next t) ∧
    (∃ t, exec (.cvPush 32#8) (running 5#4 8#4 false 0#7 0#3) = .next t) ∧
    (∃ t, exec .cvEnd (running 5#4 8#4 false 0#7 4#3) = .next t) ∧
    (∃ t, exec .cvEnd (running 5#4 8#4 false 0#7 5#3) = .next t) ∧
    ∃ t, exec .cvEnd afterDone = .next t :=
  ⟨⟨_, rfl, rfl⟩, ⟨_, rfl, rfl⟩, ⟨_, rfl⟩, ⟨_, rfl⟩, ⟨_, rfl⟩, ⟨_, rfl⟩, ⟨_, rfl⟩, ⟨_, rfl⟩, _, rfl⟩

/-- The one hypothesis of the statements about NOP, about the commands of the checksum engine and about
the messages that create and verify a checksum. -/
theorem witness_live_and_aborted : (holding 0x3fffffff#30).fatal = false ∧ aborted.fatal = true := by
  decide

theorem witness_CvCfg : State.reset.fatal = false ∧
    (1 ≤ (1#4 : WidthField).toNat ∧ (8#4 : WidthField).toNat ≤ 8) ∧
    ¬ (1 ≤ (0#4 : WidthField).toNat) ∧ ¬ ((9#4 : WidthField).toNat ≤ 8) := by decide

/-- Also of CvPushKeepsTheBitStream. Eight groups, no group, and the greatest buffer. -/
theorem witness_CvPush :
    (running 8#4 1#4 true 0#7 0#3).fatal = false ∧ (running 8#4 1#4 true 0#7 0#3).cvPhase = .run ∧
    (running 8#4 1#4 true 0#7 0#3).Inv ∧
    (255#8 : Byte).toNat < 2 ^ (running 8#4 1#4 true 0#7 0#3).cvFrom.toNat ∧
    (running 5#4 8#4 false 0#7 0#3).Inv ∧
    (31#8 : Byte).toNat < 2 ^ (running 5#4 8#4 false 0#7 0#3).cvFrom.toNat ∧
    (running 8#4 8#4 false 127#7 7#3).Inv :=
  ⟨by decide, by decide, by decide, by decide, by decide, by decide, by decide⟩

theorem witness_CvEndPads :
    (running 1#4 8#4 true 127#7 7#3).fatal = false ∧ (running 1#4 8#4 true 127#7 7#3).cvPhase = .run ∧
    (running 1#4 8#4 true 127#7 7#3).Inv ∧ (running 1#4 8#4 true 127#7 7#3).cvPad = true ∧
    (running 1#4 8#4 true 127#7 7#3).cvBits ≠ 0#3 ∧ (running 1#4 8#4 true 0#7 0#3).Inv ∧
    (running 1#4 8#4 true 0#7 0#3).cvBits = 0#3 := by decide

theorem witness_CvEndAccepts :
    (running 5#4 8#4 false 0#7 4#3).fatal = false ∧ (running 5#4 8#4 false 0#7 4#3).cvPhase = .run ∧
    (running 5#4 8#4 false 0#7 4#3).Inv ∧ (running 5#4 8#4 false 0#7 4#3).cvPad = false ∧
    (running 5#4 8#4 false 0#7 4#3).cvBits.toNat < (running 5#4 8#4 false 0#7 4#3).cvFrom.toNat ∧
    (running 5#4 8#4 false 0#7 4#3).cvAcc = 0#7 := by decide

/-- For each clause, a command that does change the register it speaks of. -/
theorem witness_EveryRegisterHasItsWriters :
    (∃ t, exec (.ckSym 0#5) State.reset = .next t ∧ t.chk ≠ State.reset.chk) ∧
    (∃ t, exec (.cvCfg true 8#4 5#4) State.reset = .next t ∧
      t.cvFrom ≠ State.reset.cvFrom ∧ t.cvPhase ≠ State.reset.cvPhase) ∧
    (∃ t, exec (.cvPush 31#8) (running 5#4 8#4 false 0#7 0#3) = .next t ∧
      t.cvAcc ≠ (running 5#4 8#4 false 0#7 0#3).cvAcc) ∧
    ∃ t, exec (.cvCfg true 8#4 0#4) State.reset = .next t ∧ t.fatal ≠ State.reset.fatal :=
  ⟨⟨_, rfl, by decide⟩, ⟨_, rfl, by decide, by decide⟩, ⟨_, rfl, by decide⟩, _, rfl, by decide⟩

theorem witness_EveryCommandIsAnsweredOnce : (running 8#4 1#4 true 0#7 0#3).Inv ∧ aborted.Inv := by
  decide

/-- A word for which the block's step gives a next state, and one for which, in a state that no run
reaches, it faults. -/
theorem witness_StepIsTheBlocksStep : (offered 0x7000#16 State.reset).inputs = .cmd 0x7000#16 :: [] ∧
    (∃ after r, blockStep (offered 0x7000#16 State.reset).toBlock 0x7000#16 = .next (after, r)) ∧
    blockStep (running 0#4 8#4 true 0#7 0#3).toBlock 0xa000#16 = .fault .widthOutOfRange :=
  ⟨rfl, ⟨_, _, rfl⟩, rfl⟩

theorem witness_RunAtThePort : State.reset.Inv := by decide

theorem witness_ReadingCommands : ∃ i, i = Instr.nop ∨ (∃ v, i = Instr.ckGen v) ∨ i = Instr.ckVfy ∨
    i = Instr.ckRd :=
  ⟨.ckGen .b, .inr (.inl ⟨.b, rfl⟩)⟩

theorem witness_UnitsShare : isBwc (.ckGen .b) = false ∧
    (holding 7#30).chk = ({ afterErrv with chk := 7#30 } : State).chk ∧
    (holding 7#30).fatal = ({ afterErrv with chk := 7#30 } : State).fatal ∧
    isBwc (.cvPush 32#8) = true ∧ ∃ t, exec (.cvPush 32#8) afterErrv = .next t :=
  ⟨rfl, rfl, rfl, rfl, _, rfl⟩

theorem witness_CreatedChecksum : engineConfig.ConstsDiffer := by decide

theorem witness_OneLateSymbolError : (List.replicate 5 (0#5 : Sym5)).length ≤ 5 ∧
    ([] : List Sym5).length ≤ 5 ∧ (1#5 : Sym5) ≠ 0#5 := by decide

/-- Both sides of the equivalence. -/
theorem witness_FirstTooWideValue :
    convertBits [31#8, 32#8, 33#8] five eight false = .invalidInputValue 32#8 ∧
    (31#8 : Byte).toNat < 2 ^ five.val ∧ 2 ^ five.val ≤ (32#8 : Byte).toNat := by decide

/-- Every value fits; then the two outcomes without padding, each at its boundary. -/
theorem witness_ConvertBitsRecuts : (∀ v ∈ [31#8, 28#8], v.toNat < 2 ^ five.val) ∧
    (2 * five.val) % eight.val < five.val ∧
    (∀ b ∈ (bitStream five.val [31#8, 28#8]).drop 8, b = false) ∧
    five.val ≤ (1 * five.val) % eight.val ∧
    ∃ b ∈ (bitStream five.val [31#8, 29#8]).drop 8, b = true :=
  ⟨by decide, by decide, by decide, by decide, true, by decide, rfl⟩

theorem witness_PadThenUnpad : five.val ≤ eight.val ∧
    (∀ v ∈ [255#8, 0#8], v.toNat < 2 ^ eight.val) := by decide

theorem witness_EqualWidths : ∀ v ∈ [0#8, 31#8], v.toNat < 2 ^ five.val := by decide

theorem witness_Accumulator : State.reset.Inv ∧ State.reset.fatal = false ∧
    ∀ i ∈ [Instr.ckSym 31#5, .cvPush 1#8, .ckGen .a], hasBadWidth i = false ∧ i ≠ .ckInit := by decide

/-- Noise between the commands, and the three outcomes of the function. -/
theorem witness_ConvertMessage : State.reset.fatal = false ∧
    [Instr.nop, .cvCfg true 5#4 8#4, .ckSym 3#5, .cvPush 3#8, .cvEnd, .ckRd].filter isBwc =
      convertMessage [3#8] five eight true ∧
    convertBits [3#8] five eight true = .ok [24#8] ∧
    convertBits [3#8, 32#8] five eight true = .invalidInputValue 32#8 ∧
    convertBits [31#8, 29#8] five eight false = .invalidPadding := by decide

end Sys2Proof.Tests
end

/-! ## The state (10_state.md): what reset gives, what a step writes and what it keeps -/

namespace Sys2Proof.Machine

/-! ### Faults and refusals at the port -/

theorem atPort_of_fault {c : Block → Reply} {s : State} {f : Fault}
    (h : c s.toBlock = .fault f) : atPort c s = .fault f := by
  simp [atPort, h]

/-- A command handed over is the block's own step on that word, at the port. -/
theorem step_of_command {s : State} {w : CmdWord} {rest : List HostInput}
    (h : s.inputs = .cmd w :: rest) :
    step s = atPort (fun b => blockStep b w) (setInputs rest s) := by
  cases hd : decode w with
  | ok i => simpa [step, h, hd, blockStep] using exec_eq_atPort i (setInputs rest s)
  | error e => simp [step, h, hd, blockStep, illegalWord]

theorem unlessFatal_ne_refused {b : Block} {c : Reply} {q : Refusal} (hc : c ≠ .refused q) :
    unlessFatal b c ≠ .refused q := by
  unfold unlessFatal
  split
  · exact nofun
  · exact hc

theorem whileRunning_ne_refused {b : Block} {c : Reply} {q : Refusal} (hc : c ≠ .refused q) :
    whileRunning b c ≠ .refused q := by
  unfold whileRunning
  cases b.cvPhase with
  | run =>
    cases converterFault b with
    | some f => exact nofun
    | none => exact hc
  | _ => exact nofun

/-- Every command has a meaning. -/
theorem reply_ne_refused (i : Instr) (b : Block) (q : Refusal) : reply i b ≠ .refused q := by
  cases i with
  | cvCfg pad f d =>
    refine unlessFatal_ne_refused ?_
    split <;> exact nofun
  | cvPush byte => exact unlessFatal_ne_refused (whileRunning_ne_refused nofun)
  | cvEnd => exact unlessFatal_ne_refused (whileRunning_ne_refused nofun)
  | _ => exact unlessFatal_ne_refused nofun

theorem blockStep_ne_refused (b : Block) (w : CmdWord) (q : Refusal) :
    blockStep b w ≠ .refused q := by
  unfold blockStep
  split
  · exact reply_ne_refused _ b q
  · exact unlessFatal_ne_refused nofun

/-! ### The converter's own stops (log entry 5) -/

theorem converterFault_of_illegal_width {b : Block}
    (h : ¬ (legalWidth b.cvFrom = true ∧ legalWidth b.cvTo = true)) :
    converterFault b = some .widthOutOfRange := by
  simp [converterFault, h]

theorem converterFault_of_bad_buffer {b : Block} (hf : legalWidth b.cvFrom = true)
    (ht : legalWidth b.cvTo = true)
    (hb : ¬ (b.cvBits.toNat < b.cvTo.toNat ∧ b.cvAcc.toNat < 2 ^ b.cvBits.toNat)) :
    converterFault b = some .bufferInconsistent := by
  simp [converterFault, hf, ht, hb]

/-- CV.PUSH and CV.END of a live block in phase RUN stop with the converter's fault. -/
theorem exec_of_converterFault {s : State} {i : Instr} {f : Fault} (hlive : s.fatal = false)
    (hrun : s.cvPhase = .run) (hi : i = .cvEnd ∨ ∃ byte, i = .cvPush byte)
    (hf : converterFault s.toBlock = some f) : exec i s = .fault f := by
  have hstop (c : Reply) : whileRunning s.toBlock c = .fault f := by simp [whileRunning, hrun, hf]
  refine (exec_eq_atPort i s).trans (atPort_of_fault ?_)
  rcases hi with rfl | ⟨byte, rfl⟩
  · exact (replyCvEnd_of_live hlive).trans (hstop _)
  · exact (replyCvPush_of_live hlive byte).trans (hstop _)

/-! ### What a command writes (R20) -/

/-- `Writes i b c`: command `i` may leave the block `c` when it finds the block `b`. One constructor
per set of register writes in the rules of the commands, with what is known of `b` when it is made;
`nothing` stands for the commands, and the refusals of commands, that only answer. -/
inductive Writes : Instr → Block → Block → Prop where
  | nothing (i : Instr) (b : Block) : Writes i b b
  | seed (b : Block) : Writes .ckInit b (setChk seed b)
  | symbol (v : Sym5) (b : Block) : Writes (.ckSym v) b (absorb v b).1
  | highAbsorbed (byte : Byte) (b : Block) : Writes (.ckHrph byte) b (absorb (highPart byte) b).1
  | lowAbsorbed (byte : Byte) (b : Block) : Writes (.ckHrpl byte) b (absorb (lowPart byte) b).1
  | opened {f d : WidthField} (hf : legalWidth f = true) (hd : legalWidth d = true) (pad : Bool)
      (b : Block) : Writes (.cvCfg pad f d) b (openConversion pad f d b)
  | aborted {f d : WidthField} (h : ¬ (legalWidth f = true ∧ legalWidth d = true)) (pad : Bool)
      (b : Block) : Writes (.cvCfg pad f d) b (setFatal b)
  | pushed (byte : Byte) {b : Block} (hrun : b.cvPhase = .run) (hok : converterFault b = none)
      {g : Regrouped}
      (hg : g = regroup b.cvFrom.toNat b.cvTo.toNat b.cvAcc.toNat b.cvBits.toNat byte.toNat) :
      Writes (.cvPush byte) b (setBuffer g.acc g.bits b)
  | tooWide (byte : Byte) {b : Block} (hrun : b.cvPhase = .run) :
      Writes (.cvPush byte) b (setErrval byte (setPhase .errv b))
  | ended {b : Block} (hrun : b.cvPhase = .run) : Writes .cvEnd b (setPhase .done b)
  | badPadding {b : Block} (hrun : b.cvPhase = .run) : Writes .cvEnd b (setPhase .errp b)

/-- CV.PUSH and CV.END write nothing outside phase RUN, so what they write is what their work in
phase RUN writes. -/
theorem writes_of_whileRunning {i : Instr} {b : Block} {a answer : Block × Response}
    (hwork : b.cvPhase = .run → converterFault b = none → Writes i b answer.1)
    (h : whileRunning b (.next answer) = .next a) : Writes i b a.1 := by
  obtain ⟨-, rfl⟩ | ⟨-, rfl⟩ | ⟨-, rfl⟩ | ⟨hrun, hok, heq⟩ := whileRunning_next h
  · exact .nothing i b
  · exact .nothing i b
  · exact .nothing i b
  · cases heq
    exact hwork hrun hok

theorem writes_pushValue (byte : Byte) {b : Block} (hrun : b.cvPhase = .run)
    (hok : converterFault b = none) : Writes (.cvPush byte) b (pushValue byte b).1 := by
  obtain ⟨-, heq⟩ | ⟨-, heq⟩ := pushValue_cases byte b
  · rw [heq]
    exact .pushed byte hrun hok rfl
  · rw [heq]
    exact .tooWide byte hrun

theorem writes_endConversion {b : Block} (hrun : b.cvPhase = .run) :
    Writes .cvEnd b (endConversion b).1 := by
  obtain ⟨-, heq⟩ | ⟨-, -, heq⟩ | ⟨-, -, heq⟩ := endConversion_cases b
  · rw [heq]
    exact .ended hrun
  · rw [heq]
    exact .badPadding hrun
  · rw [heq]
    exact .ended hrun

/-- Whatever a command answers, the block it leaves is one that `Writes` allows. -/
theorem writes_of_reply {i : Instr} {b : Block} {a : Block × Response}
    (h : reply i b = .next a) : Writes i b a.1 := by
  rcases Bool.eq_false_or_eq_true b.fatal with hf | hf
  · rw [reply_of_fatal hf] at h
    cases h
    exact .nothing i b
  · cases i with
    | nop => cases (replyNop_of_live hf).symm.trans h; exact .nothing _ b
    | ckInit => cases (replyCkInit_of_live hf).symm.trans h; exact .seed b
    | ckSym v => cases (replyCkSym_of_live hf v).symm.trans h; exact .symbol v b
    | ckHrph byte => cases (replyCkHrph_of_live hf byte).symm.trans h; exact .highAbsorbed byte b
    | ckHrpl byte => cases (replyCkHrpl_of_live hf byte).symm.trans h; exact .lowAbsorbed byte b
    | ckGen var => cases (replyCkGen_of_live hf var).symm.trans h; exact .nothing _ b
    | ckVfy => cases (replyCkVfy_of_live hf).symm.trans h; exact .nothing _ b
    | ckRd => cases (replyCkRd_of_live hf).symm.trans h; exact .nothing _ b
    | cvCfg pad f d =>
      cases (replyCvCfg_of_live hf pad f d).symm.trans h
      simp only [Bool.and_eq_true]
      split
      · obtain ⟨hfrom, hto⟩ := ‹_ ∧ _›
        exact .opened hfrom hto pad b
      · exact .aborted ‹_› pad b
    | cvPush byte =>
      exact writes_of_whileRunning (writes_pushValue byte)
        ((replyCvPush_of_live hf byte).symm.trans h)
    | cvEnd =>
      exact writes_of_whileRunning (fun hrun _ => writes_endConversion hrun)
        ((replyCvEnd_of_live hf).symm.trans h)

theorem writes_of_exec {i : Instr} {s t : State} (h : exec i s = .next t) :
    Writes i s.toBlock t.toBlock := by
  obtain ⟨a, hreply, rfl⟩ := exec_next.1 h
  exact writes_of_reply hreply

/-! ### The writers of each register -/

section Writers

variable {i : Instr} {b c : Block}

theorem Writes.chk_writers (h : Writes i b c) (hne : c.chk ≠ b.chk) :
    i = .ckInit ∨ (∃ v, i = .ckSym v) ∨ (∃ byte, i = .ckHrph byte) ∨
      ∃ byte, i = .ckHrpl byte := by
  cases h with
  | seed => exact .inl rfl
  | symbol v => exact .inr (.inl ⟨v, rfl⟩)
  | highAbsorbed byte => exact .inr (.inr (.inl ⟨byte, rfl⟩))
  | lowAbsorbed byte => exact .inr (.inr (.inr ⟨byte, rfl⟩))
  | _ => exact absurd rfl hne

theorem Writes.config_writers (h : Writes i b c)
    (hne : c.cvFrom ≠ b.cvFrom ∨ c.cvTo ≠ b.cvTo ∨ c.cvPad ≠ b.cvPad) :
    ∃ p f d, i = .cvCfg p f d := by
  cases h with
  | opened => exact ⟨_, _, _, rfl⟩
  | _ => simp [absorb] at hne

theorem Writes.buffer_writers (h : Writes i b c)
    (hne : c.cvAcc ≠ b.cvAcc ∨ c.cvBits ≠ b.cvBits ∨ c.cvErrval ≠ b.cvErrval) :
    (∃ p f d, i = .cvCfg p f d) ∨ ∃ byte, i = .cvPush byte := by
  cases h with
  | opened => exact .inl ⟨_, _, _, rfl⟩
  | pushed byte => exact .inr ⟨byte, rfl⟩
  | tooWide byte => exact .inr ⟨byte, rfl⟩
  | _ => simp [absorb] at hne

theorem Writes.phase_writers (h : Writes i b c) (hne : c.cvPhase ≠ b.cvPhase) :
    isBwc i = true := by
  cases h with
  | opened => rfl
  | tooWide => rfl
  | ended => rfl
  | badPadding => rfl
  | _ => exact absurd rfl hne

theorem Writes.fatal_writers (h : Writes i b c) (hne : c.fatal ≠ b.fatal) :
    hasBadWidth i = true ∧ c.fatal = true := by
  cases h with
  | @aborted f d hw =>
    simp only [legalWidth_iff] at hw
    refine ⟨?_, rfl⟩
    simp only [hasBadWidth, Bool.or_eq_true, decide_eq_true_eq]
    omega
  | _ => exact absurd rfl hne

end Writers

/-! ### The invariant (R33) -/

/-- With a conversion open or ended the invariant says that the widths are legal, that the buffer is
one they allow, and that an offending value is there in phase ERRV alone. -/
theorem Block.inv_of_not_idle {b : Block} (hp : b.cvPhase ≠ .idle)
    (hok : converterFault b = none) (herr : b.cvPhase ≠ .errv → b.cvErrval = 0#8) : b.Inv := by
  obtain ⟨⟨hf1, hf8⟩, ⟨ht1, ht8⟩, hbits, hacc⟩ := converterFault_eq_none.1 hok
  exact ⟨fun _ => ⟨hf1, hf8, ht1, ht8, hbits⟩, hacc, fun h => absurd h hp, herr⟩

theorem Block.reset_inv : Block.reset.Inv := by decide

theorem openConversion_inv {f d : WidthField} (hf : legalWidth f = true)
    (hd : legalWidth d = true) (pad : Bool) (b : Block) : (openConversion pad f d b).Inv := by
  rw [legalWidth_iff] at hf hd
  refine Block.inv_of_not_idle (by simp) (converterFault_eq_none.2 ⟨hf, hd, ?_⟩) (by simp)
  exact ⟨hd.1, by simp⟩

/-- A buffer below the output width fits its registers, so writing it keeps the invariant. -/
theorem setBuffer_inv {b : Block} (hi : b.Inv) (hp : b.cvPhase ≠ .idle) {acc bits : Nat}
    (hbits : bits < b.cvTo.toNat) (hacc : acc < 2 ^ bits) : (setBuffer acc bits b).Inv := by
  obtain ⟨hwidths, -, -, herr⟩ := hi
  obtain ⟨hf1, hf8, ht1, ht8, -⟩ := hwidths hp
  have hbits8 : bits % 8 = bits := Nat.mod_eq_of_lt (by omega)
  have hpow : 2 ^ bits ≤ 2 ^ 7 := Nat.pow_le_pow_right (by omega) (by omega)
  have hacc128 : acc % 128 = acc := Nat.mod_eq_of_lt (by omega)
  refine Block.inv_of_not_idle hp (converterFault_eq_none.2 ⟨⟨hf1, hf8⟩, ⟨ht1, ht8⟩, ?_⟩) herr
  simpa [hbits8, hacc128] using And.intro hbits hacc

/-- Leaving phase RUN for any phase but IDLE keeps the invariant: RUN holds no offending value. -/
theorem setPhase_inv {b : Block} (hi : b.Inv) (hrun : b.cvPhase = .run) {p : Phase}
    (hp : p ≠ .idle) : (setPhase p b).Inv := by
  have hb : b.cvPhase ≠ .idle := by simp [hrun]
  have hok : converterFault b = none := hi.converterFault_none hb
  obtain ⟨-, -, -, herr⟩ := hi
  exact Block.inv_of_not_idle hp hok fun _ => herr (by simp [hrun])

/-- In phase ERRV the invariant leaves the offending value free. -/
theorem setErrval_inv {b : Block} (hi : b.Inv) (herrv : b.cvPhase = .errv) (v : Byte) :
    (setErrval v b).Inv := by
  have hb : b.cvPhase ≠ .idle := by simp [herrv]
  exact Block.inv_of_not_idle hb (hi.converterFault_none hb) fun h => absurd herrv h

/-- The buffer that a push leaves is shorter than an output group, and its value fits its length. -/
theorem setBuffer_regroup_inv {b : Block} (hi : b.Inv) (hrun : b.cvPhase = .run) (v : Nat) :
    let g := regroup b.cvFrom.toNat b.cvTo.toNat b.cvAcc.toNat b.cvBits.toNat v
    (setBuffer g.acc g.bits b).Inv := by
  have hp : b.cvPhase ≠ .idle := by simp [hrun]
  obtain ⟨-, ⟨ht1, -⟩, -⟩ := converterFault_eq_none.1 (hi.converterFault_none hp)
  refine setBuffer_inv hi hp ?_ (regroup_acc_lt ..)
  rw [regroup_bits]
  exact Nat.mod_lt _ ht1

/-- Every set of register writes keeps the invariant. -/
theorem Writes.inv {i : Instr} {b c : Block} (h : Writes i b c) (hi : b.Inv) : c.Inv := by
  cases h with
  | nothing | seed | symbol | highAbsorbed | lowAbsorbed | aborted => exact hi
  | opened hf hd pad => exact openConversion_inv hf hd pad b
  | pushed byte hrun _ hg => exact hg ▸ setBuffer_regroup_inv hi hrun byte.toNat
  | tooWide byte hrun => exact setErrval_inv (setPhase_inv hi hrun (by simp)) rfl byte
  | ended hrun => exact setPhase_inv hi hrun (by simp)
  | badPadding hrun => exact setPhase_inv hi hrun (by simp)

/-! ### The obligations of 10_state.md -/

/-- Settles O11: each kind of step keeps the invariant, a command because each of its sets of
register writes does. -/
theorem everyStepKeepsTheInvariant : Obligations.EveryStepKeepsTheInvariant := by
  intro s t hi h
  obtain ⟨-, heq⟩ | ⟨rest, -, heq⟩ | ⟨w, rest, i, -, -, heq⟩ | ⟨w, rest, e, -, -, heq⟩ :=
    step_cases s
  · cases heq.symm.trans h
    exact hi
  · cases heq.symm.trans h
    exact Block.reset_inv
  · exact (writes_of_exec (heq.symm.trans h)).inv hi
  · cases (heq.trans (illegalWord_eq _)).symm.trans h
    exact hi

/-- Settles O35, register by register, from the register writes a command can make. -/
theorem everyRegisterHasItsWriters : Obligations.EveryRegisterHasItsWriters := by
  intro s t i h
  have hw := writes_of_exec h
  exact ⟨exec_inputs h, hw.chk_writers, hw.config_writers, hw.buffer_writers, hw.phase_writers,
    hw.fatal_writers⟩

/-- Settles O54: the step at the port is the block's step on the word, delivered. -/
theorem stepIsTheBlocksStepOnTheWordHandedOver :
    Obligations.StepIsTheBlocksStepOnTheWordHandedOver := by
  intro s w rest hin
  have hstep := step_of_command hin
  refine ⟨fun after r h => ?_, fun f h => ?_, blockStep_ne_refused s.toBlock w⟩
  · exact hstep.trans (atPort_of_next (a := (after, r)) h)
  · exact hstep.trans (atPort_of_fault h)

/-- Settles O8, by evaluating the reset state. -/
theorem resetHoldsTheStatedValues : Obligations.ResetHoldsTheStatedValues :=
  ⟨rfl, rfl, rfl, rfl, rfl, rfl, rfl, rfl, rfl⟩

/-- Settles O9: the reset block is in phase IDLE with an empty converter. -/
theorem resetMeetsTheInvariant : Obligations.ResetMeetsTheInvariant :=
  Block.reset_inv

/-- Settles O13: each way of breaking the converter's registers gives its own fault. -/
theorem brokenConverterStateFaults : Obligations.BrokenConverterStateFaults := by
  intro s i hlive hrun hi
  refine ⟨fun hwidth => ?_, fun hf1 hf8 ht1 ht8 hbuffer => ?_⟩
  · refine exec_of_converterFault hlive hrun hi (converterFault_of_illegal_width ?_)
    rw [legalWidth_iff, legalWidth_iff]
    omega
  · refine exec_of_converterFault hlive hrun hi (converterFault_of_bad_buffer
      ((legalWidth_iff _).2 ⟨hf1, hf8⟩) ((legalWidth_iff _).2 ⟨ht1, ht8⟩) ?_)
    rintro ⟨hbits, hacc⟩
    omega

end Sys2Proof.Machine

/-! ## Memory (20_memory.md): the host's next move, the commands that only read, what the units
share, and the bit stream -/

namespace Sys2Proof.Machine

/-! ### The host's next move (R48) -/

theorem setInputs_of_inputs_eq {s : State} {ins : List HostInput} (h : s.inputs = ins) :
    setInputs ins s = s := by
  subst h
  rfl

theorem step_of_no_input {s : State} (h : s.inputs = []) : step s = .next s := by
  simp [step, h, awaitHost]

/-- Settles O7: a state with a word to hand over is one whose moves were set to that word and the
rest, and there the step runs the decoded command. -/
theorem stepRunsTheDecodedCommand : Obligations.StepRunsTheDecodedCommand := by
  refine ⟨fun s w i rest hin hdecode _ => ?_, fun s => step_of_no_input⟩
  have hstep := step_of_decode (s := s) hdecode rest
  rwa [setInputs_of_inputs_eq hin] at hstep

/-! ### The commands that only read (R47) -/

/-- NOP, CK.GEN, CK.VFY and CK.RD reply with the block they found, aborted or not. -/
theorem reply_of_reading {i : Instr}
    (hi : i = .nop ∨ (∃ v, i = .ckGen v) ∨ i = .ckVfy ∨ i = .ckRd) (b : Block) :
    ∃ r, reply i b = .next (b, r) := by
  rcases Bool.eq_false_or_eq_true b.fatal with hf | hf
  · exact ⟨_, reply_of_fatal hf i⟩
  · obtain rfl | ⟨v, rfl⟩ | rfl | rfl := hi
    · exact ⟨_, replyNop_of_live hf⟩
    · exact ⟨_, replyCkGen_of_live hf v⟩
    · exact ⟨_, replyCkVfy_of_live hf⟩
    · exact ⟨_, replyCkRd_of_live hf⟩

/-- Settles O37: the first answer leaves the block as it was, so the second reply is the first. -/
theorem readingCommandsAreIdempotent : Obligations.ReadingCommandsAreIdempotent := by
  intro s i hi
  obtain ⟨r, hreply⟩ := reply_of_reading hi s.toBlock
  have hagain := exec_of_reply (s := { s with rsps := s.rsps ++ [r] }) hreply
  refine ⟨r, exec_of_reply hreply, hagain.trans ?_⟩
  simp [deliver]

/-! ### What the two units share (R52) -/

theorem absorb_of_chk {b : Block} {x : Chk} (v : Sym5) (hx : b.chk = x) :
    absorb v b = (setChk (polymodStep engineConfig x v) b,
      valueResponse (polymodStep engineConfig x v)) := by
  subst hx
  rfl

/-- What a command outside the converter makes of the accumulator, and its response, depend on the
accumulator and the abort flag alone. -/
theorem reply_of_chk_and_fatal {i : Instr} (hi : isBwc i = false) (x : Chk) (aborted : Bool) :
    ∃ c r, ∀ b : Block, b.chk = x → b.fatal = aborted → reply i b = .next (setChk c b, r) := by
  cases aborted with
  | true => exact ⟨x, { status := .fatal }, by rintro b rfl hf; exact reply_of_fatal hf i⟩
  | false =>
    cases i with
    | nop => exact ⟨x, {}, by rintro b rfl hf; exact replyNop_of_live hf⟩
    | ckInit => exact ⟨seed, valueResponse seed, fun b _ hf => replyCkInit_of_live hf⟩
    | ckSym sym =>
      exact ⟨_, _, fun b hx hf =>
        (replyCkSym_of_live hf sym).trans (congrArg _ (absorb_of_chk sym hx))⟩
    | ckHrph byte =>
      exact ⟨_, _, fun b hx hf =>
        (replyCkHrph_of_live hf byte).trans (congrArg _ (absorb_of_chk (highPart byte) hx))⟩
    | ckHrpl byte =>
      exact ⟨_, _, fun b hx hf =>
        (replyCkHrpl_of_live hf byte).trans (congrArg _ (absorb_of_chk (lowPart byte) hx))⟩
    | ckGen var =>
      exact ⟨x, checksumResponse (finishChecksum engineConfig x var), by
        rintro b rfl hf; exact replyCkGen_of_live hf var⟩
    | ckVfy =>
      exact ⟨x, { value := x, variant := identifyVariant engineConfig x }, by
        rintro b rfl hf; exact replyCkVfy_of_live hf⟩
    | ckRd => exact ⟨x, valueResponse x, by rintro b rfl hf; exact replyCkRd_of_live hf⟩
    | cvCfg pad f d => simp [isBwc] at hi
    | cvPush byte => simp [isBwc] at hi
    | cvEnd => simp [isBwc] at hi

section Converter

variable (c : Chk) (b : Block)

theorem pushValue_setChk (byte : Byte) :
    pushValue byte (setChk c b) = (pushValue byte b).map (setChk c) id := by
  rw [pushValue, pushValue, apply_ite (Prod.map (setChk c) id)]
  rfl

theorem endConversion_setChk :
    endConversion (setChk c b) = (endConversion b).map (setChk c) id := by
  rw [endConversion, endConversion, apply_ite (Prod.map (setChk c) id),
    apply_ite (Prod.map (setChk c) id)]
  rfl

/-- The tests before CV.PUSH and CV.END read no accumulator. -/
theorem whileRunning_setChk {a answer : Block × Response}
    (h : whileRunning b (.next answer) = .next a) :
    whileRunning (setChk c b) (.next (answer.map (setChk c) id)) =
      .next (a.map (setChk c) id) := by
  obtain ⟨hp | hp, rfl⟩ | ⟨hp, rfl⟩ | ⟨hp, rfl⟩ | ⟨hp, hok, heq⟩ := whileRunning_next h
  · simp [whileRunning, hp, raise, respond]
  · simp [whileRunning, hp, raise, respond]
  · simp [whileRunning, hp, respond]
  · simp [whileRunning, hp, respond]
  · cases heq
    exact whileRunning_run (b := setChk c b) hp hok _

end Converter

/-- A command of the converter replies the same whatever the accumulator holds, which it keeps. -/
theorem reply_setChk {i : Instr} (hi : isBwc i = true) {b : Block} {a : Block × Response}
    (h : reply i b = .next a) (c : Chk) :
    reply i (setChk c b) = .next (a.map (setChk c) id) := by
  rcases Bool.eq_false_or_eq_true b.fatal with hf | hf
  · cases (reply_of_fatal hf i).symm.trans h
    exact reply_of_fatal (b := setChk c b) hf i
  · have hf' : (setChk c b).fatal = false := hf
    cases i with
    | cvCfg pad f d =>
      cases (replyCvCfg_of_live hf pad f d).symm.trans h
      rw [replyCvCfg_of_live hf']
      split <;> rfl
    | cvPush byte =>
      rw [replyCvPush_of_live hf', pushValue_setChk]
      exact whileRunning_setChk c b ((replyCvPush_of_live hf byte).symm.trans h)
    | cvEnd =>
      rw [replyCvEnd_of_live hf', endConversion_setChk]
      exact whileRunning_setChk c b ((replyCvEnd_of_live hf).symm.trans h)
    | _ => simp [isBwc] at hi

theorem Writes.chk_of_isBwc {i : Instr} {b c : Block} (h : Writes i b c) (hi : isBwc i = true) :
    c.chk = b.chk := by
  by_contra hne
  obtain rfl | ⟨v, rfl⟩ | ⟨byte, rfl⟩ | ⟨byte, rfl⟩ := h.chk_writers hne
  all_goals simp [isBwc] at hi

/-- Settles O38: each unit's replies are decided without the other's registers. -/
theorem unitsShareOnlyTheAbortFlag : Obligations.UnitsShareOnlyTheAbortFlag := by
  refine ⟨fun i s u hi hchk hfatal => ?_, fun i s t c hi h => ⟨?_, ?_⟩⟩
  · obtain ⟨c, r, hreply⟩ := reply_of_chk_and_fatal hi u.chk u.fatal
    exact ⟨c, r, exec_of_reply (hreply s.toBlock hchk hfatal),
      exec_of_reply (hreply u.toBlock rfl rfl)⟩
  · exact (writes_of_exec h).chk_of_isBwc hi
  · obtain ⟨a, hreply, rfl⟩ := exec_next.1 h
    exact exec_of_reply (s := { s with chk := c }) (reply_setChk hi hreply c)

/-! ### One push as a stretch of the bit stream (R41, R117) -/

/-- CV.PUSH of a value that fits, in phase RUN under the invariant. -/
theorem exec_cvPush_of_fits {s : State} {byte : Byte} (hlive : s.fatal = false)
    (hrun : s.cvPhase = .run) (hinv : s.Inv) (hfits : byte.toNat < 2 ^ s.cvFrom.toNat) :
    let g := regroup s.cvFrom.toNat s.cvTo.toNat s.cvAcc.toNat s.cvBits.toNat byte.toNat
    exec (.cvPush byte) s =
      .next (deliver s (setBuffer g.acc g.bits s.toBlock, groupsResponse g.groups)) := by
  refine exec_of_reply ((replyCvPush_of_live hlive byte).trans ?_)
  rw [whileRunning_run hrun (hinv.converterFault_none (by simp [hrun]))]
  obtain ⟨-, heq⟩ | ⟨hwide, -⟩ := pushValue_cases byte s.toBlock
  · rw [heq]
    rfl
  · omega

/-- The registers hold a buffer shorter than eight bits exactly. -/
theorem setBuffer_toNat {acc bits : Nat} (hbits : bits < 8) (hacc : acc < 2 ^ bits) (b : Block) :
    (setBuffer acc bits b).cvAcc.toNat = acc ∧ (setBuffer acc bits b).cvBits.toNat = bits := by
  have hpow : 2 ^ bits ≤ 2 ^ 7 := Nat.pow_le_pow_right (by omega) (by omega)
  exact ⟨Nat.mod_eq_of_lt (by omega), Nat.mod_eq_of_lt (by omega)⟩

/-- Settles O34: the response and the registers hold the regrouped buffer exactly, and regrouping
keeps the stream. -/
theorem cvPushKeepsTheBitStream : Obligations.CvPushKeepsTheBitStream := by
  intro s byte hlive hrun hinv hfits
  obtain ⟨⟨-, hf8⟩, ⟨ht1, ht8⟩, hbits, -⟩ :=
    converterFault_eq_none.1 (hinv.converterFault_none (by simp [hrun]))
  refine ⟨_, _, exec_cvPush_of_fits hlive hrun hinv hfits, rfl, ?_⟩
  rw [validGroups_groupsResponse (regroup_groups_le_eight hf8 ht1 hbits), deliver_toBlock]
  have hleft := regroup_bits s.cvFrom.toNat s.cvTo.toNat s.cvAcc.toNat s.cvBits.toNat byte.toNat
  have hmod := Nat.mod_lt (s.cvBits.toNat + s.cvFrom.toNat) ht1
  obtain ⟨hacc, hbits'⟩ := setBuffer_toNat (by omega)
    (regroup_acc_lt s.cvFrom.toNat s.cvTo.toNat s.cvAcc.toNat s.cvBits.toNat byte.toNat) s.toBlock
  rw [hacc, hbits']
  exact (regroup_stream ht8 hfits).symm

/-! ### `convert_bits` as a recutting of the bit stream (R41, R113, R114) -/

/-- The loop of R110 has taken in the bits `stream`: the groups in `out` and the `bits` buffered bits
are `stream` cut at `t`, each group in its own `t` digits. -/
structure Recut (t : Nat) (stream : List Bool) (acc bits : Nat) (out : List Byte) : Prop where
  short : bits < t
  groups_lt : ∀ g ∈ out, g.toNat < 2 ^ t
  stream_eq : bitStream t out ++ bitsOf bits acc = stream

section Recut

variable {t acc bits : Nat} {stream : List Bool} {out : List Byte}

theorem Recut.length_eq (h : Recut t stream acc bits out) :
    out.length * t + bits = stream.length := by
  simp [← h.stream_eq, bitStream_length]

theorem Recut.bits_eq (h : Recut t stream acc bits out) : bits = stream.length % t := by
  rw [← h.length_eq, Nat.mul_add_mod_self_right, Nat.mod_eq_of_lt h.short]

theorem Recut.out_length (h : Recut t stream acc bits out) : out.length = stream.length / t := by
  have hshort := h.short
  rw [← h.length_eq, Nat.add_comm, Nat.add_mul_div_right _ _ (by omega), Nat.div_eq_of_lt hshort,
    Nat.zero_add]

theorem Recut.take_eq (h : Recut t stream acc bits out) :
    stream.take (out.length * t) = bitStream t out := by
  rw [← h.stream_eq, List.take_left' (bitStream_length t out)]

theorem Recut.drop_eq (h : Recut t stream acc bits out) :
    stream.drop (out.length * t) = bitsOf bits acc := by
  rw [← h.stream_eq, List.drop_left' (bitStream_length t out)]

/-- Masked or not, the buffer's live bits are the same. -/
theorem bitsOf_kept (masked : Bool) (n a : Nat) :
    bitsOf n (if masked then a &&& (2 ^ n - 1) else a) = bitsOf n a := by
  cases masked with
  | true => simp [Nat.and_two_pow_sub_one_eq_mod, bitsOf_mod]
  | false => rfl

/-- One turn of the loop takes in the digits of one value. -/
theorem Recut.turn (h : Recut t stream acc bits out) (h8 : t ≤ 8) {f v : Nat} (hv : v < 2 ^ f)
    (masked : Bool) :
    let acc' := (acc <<< f) ||| v
    let e := emitGroups acc' t (bits + f) (bits + f)
    Recut t (stream ++ bitsOf f v) (if masked then acc' &&& (2 ^ e.2 - 1) else acc') e.2
      (out ++ e.1) := by
  have h1 : 1 ≤ t := by have := h.short; omega
  obtain ⟨hbits, -, hlt, hstream⟩ :=
    emitGroups_spec h1 h8 ((acc <<< f) ||| v) (bits + f) (bits + f) le_rfl
  refine ⟨?_, fun g hg => ?_, ?_⟩
  · rw [hbits]
    exact Nat.mod_lt _ h1
  · exact (List.mem_append.1 hg).elim (h.groups_lt g) (hlt g)
  · rw [bitsOf_kept, hbits, bitStream_append, List.append_assoc, hstream,
      bitsOf_shiftLeft_or _ _ hv, ← List.append_assoc, h.stream_eq]

/-- When every value fits, the loop reaches its end with all their digits taken in. -/
theorem convertLoop_recut (h8 : t ≤ 8) {f : Nat} (masked pad : Bool) {data : List Byte}
    (hdata : ∀ v ∈ data, v.toNat < 2 ^ f) (h : Recut t stream acc bits out) :
    ∃ acc' bits' out', Recut t (stream ++ bitStream f data) acc' bits' out' ∧
      convertLoop masked f t pad data acc bits out =
        convertLoop masked f t pad [] acc' bits' out' := by
  induction data generalizing stream acc bits out with
  | nil => exact ⟨acc, bits, out, by simpa [bitStream] using h, rfl⟩
  | cons v data ih =>
    have hv : v.toNat < 2 ^ f := hdata v (by simp)
    obtain ⟨acc', bits', out', hrecut, heq⟩ :=
      ih (fun u hu => hdata u (by simp [hu])) (h.turn h8 hv masked)
    refine ⟨acc', bits', out', ?_, (if_pos ((fitsWidth_iff f v).2 hv)).trans heq⟩
    rwa [bitStream_cons, ← List.append_assoc]

/-- R113: the padding groups are the leftover bits and fewer than a group of zeros. -/
theorem padGroups_spec (h8 : t ≤ 8) (hr : bits < t) :
    (∀ g ∈ padGroups t acc bits, g.toNat < 2 ^ t) ∧
      ∃ z < t, bitStream t (padGroups t acc bits) = bitsOf bits acc ++ List.replicate z false := by
  unfold padGroups
  split
  · obtain ⟨-, hstream, hlt⟩ := lastGroup_spec (acc := acc) hr
    have hpow : 2 ^ t ≤ 2 ^ 8 := Nat.pow_le_pow_right (by omega) h8
    have hslot : (BitVec.ofNat 8 (lastGroup t acc bits)).toNat = lastGroup t acc bits :=
      Nat.mod_eq_of_lt (by omega)
    refine ⟨by simpa [hslot] using hlt, t - bits, by omega, ?_⟩
    simpa [bitStream, hslot] using hstream
  · obtain rfl : bits = 0 := by omega
    exact ⟨by simp, 0, hr, rfl⟩

/-- R114: without padding the end fails when a whole symbol, or a 1, is left over. -/
theorem paddingFails_iff (hr : bits < t) (f : Nat) :
    paddingFails f t acc bits = true ↔ f ≤ bits ∨ ∃ b ∈ bitsOf bits acc, b = true := by
  rw [← (lastGroup_spec hr).1]
  simp [paddingFails]

/-- A stream filled up with fewer than a group of zeros has the groups that rounding up gives. -/
theorem length_of_bitStream_filled {z : Nat} (hz : z < t)
    (h : bitStream t out = stream ++ List.replicate z false) :
    out.length = (stream.length + t - 1) / t ∧ z = out.length * t - stream.length := by
  have hlen : out.length * t = stream.length + z := by
    simpa [bitStream_length] using congrArg List.length h
  refine ⟨(Nat.div_eq_of_lt_le (by omega) ?_).symm, by omega⟩
  rw [Nat.add_mul]
  omega

end Recut

/-- `convert_bits` of values that fit ends with the whole input taken in, whatever is to be done with
the leftover bits. -/
theorem convertBits_recut {data : List Byte} (f t : Width)
    (hdata : ∀ v ∈ data, v.toNat < 2 ^ f.val) (pad : Bool) :
    ∃ acc bits out, Recut t.val (bitStream f.val data) acc bits out ∧
      convertBits data f t pad = convertLoop true f.val t.val pad [] acc bits out := by
  have hstart : Recut t.val [] 0 0 [] := ⟨t.pos, by simp, rfl⟩
  simpa [convertBits] using convertLoop_recut t.le_eight true pad hdata hstart

/-- Settles O47: the loop ends with the input's stream cut into groups and leftover bits, and the end
of the conversion pads the leftover bits or tests them. -/
theorem convertBitsRecutsTheBitStream : Obligations.ConvertBitsRecutsTheBitStream := by
  intro data f t hdata
  rw [← bitStream_length f.val data]
  refine ⟨?_, ?_, ?_⟩
  · obtain ⟨acc, bits, out, hcut, heq⟩ := convertBits_recut f t hdata true
    obtain ⟨hlt, z, hz, hpad⟩ := padGroups_spec (acc := acc) t.le_eight hcut.short
    have hstream : bitStream t.val (out ++ padGroups t.val acc bits) =
        bitStream f.val data ++ List.replicate z false := by
      rw [bitStream_append, hpad, ← List.append_assoc, hcut.stream_eq]
    obtain ⟨hlen, hzeros⟩ := length_of_bitStream_filled hz hstream
    refine ⟨_, heq, hlen, fun g hg => ?_, hzeros ▸ hstream⟩
    exact (List.mem_append.1 hg).elim (hcut.groups_lt g) (hlt g)
  · intro hshort hzero
    obtain ⟨acc, bits, out, hcut, heq⟩ := convertBits_recut f t hdata false
    rw [← hcut.out_length, hcut.drop_eq] at hzero
    have hpass : paddingFails f.val t.val acc bits = false := by
      rw [← Bool.not_eq_true, paddingFails_iff hcut.short, hcut.bits_eq]
      rintro (hle | ⟨b, hb, rfl⟩)
      · omega
      · exact Bool.noConfusion (hzero _ (by rwa [hcut.bits_eq]))
    refine ⟨out, heq.trans (by simp [convertLoop, hpass]), hcut.out_length, hcut.groups_lt, ?_⟩
    rw [← hcut.out_length, hcut.take_eq]
  · intro hbad
    obtain ⟨acc, bits, out, hcut, heq⟩ := convertBits_recut f t hdata false
    rw [← hcut.out_length, hcut.drop_eq, ← hcut.bits_eq, ← paddingFails_iff hcut.short] at hbad
    exact heq.trans (by simp [convertLoop, hbad])

end Sys2Proof.Machine

/-! ## Encoding (30_encoding.md): the decoder and the encoder are inverse, which words a row of the
opcode map has, what the assembler emits, and the shape of a response -/

namespace Sys2Proof.Machine

/-! ### Fields of a word -/

theorem append_eq_iff {a k : Nat} {x : BitVec a} {y : BitVec k} {w : BitVec (a + k)} :
    x ++ y = w ↔ w.extractLsb' k a = x ∧ w.extractLsb' 0 k = y := by
  constructor
  · rintro rfl
    exact ⟨BitVec.extractLsb'_append_eq_left, BitVec.extractLsb'_append_eq_right⟩
  · rintro ⟨rfl, rfl⟩
    rw [BitVec.extractLsb'_append_extractLsb'_eq_extractLsb' (by omega), BitVec.extractLsb'_eq_self]

/-- A field of a field is a field of the word (the library has this for a field at bit 0 alone). -/
theorem extractLsb'_extractLsb' {n start len start' len' : Nat} (h : start + len ≤ len')
    (w : BitVec n) :
    (w.extractLsb' start' len').extractLsb' start len = w.extractLsb' (start' + start) len := by
  ext j hj
  simp [show start + j < len' by omega, Nat.add_assoc]

theorem append_append_eq_iff {a m k : Nat} {x : BitVec a} {z : BitVec m} {y : BitVec k}
    {w : BitVec (a + m + k)} :
    x ++ z ++ y = w ↔
      w.extractLsb' (k + m) a = x ∧ w.extractLsb' k m = z ∧ w.extractLsb' 0 k = y := by
  rw [append_eq_iff, eq_comm, append_eq_iff, extractLsb'_extractLsb' (by omega),
    extractLsb'_extractLsb' (by omega), and_assoc, Nat.add_zero]

theorem extractLsb'_one_eq_ofBool_iff {n : Nat} {w : BitVec n} {j : Nat} {bit : Bool} :
    w.extractLsb' j 1 = BitVec.ofBool bit ↔ w.getLsbD j = bit := by
  simp [BitVec.eq_of_getElem_eq_iff]

/-- The zero bits of a format that leaves the low `k` bits to its operands, as a bound on `arg`. -/
theorem zeroBits_iff {k : Nat} (hk : k ≤ 12) (w : CmdWord) :
    w.extractLsb' k (12 - k) = 0#(12 - k) ↔ w.toNat % 4096 < 2 ^ k := by
  have hpow : 2 ^ k * 2 ^ (12 - k) = 4096 := by rw [← Nat.pow_add, Nat.add_sub_cancel' hk]
  rw [← BitVec.toNat_inj, BitVec.extractLsb'_toNat, Nat.shiftRight_eq_div_pow,
    ← Nat.mod_mul_right_div_self, hpow]
  simp [Nat.div_eq_zero_iff]

theorem opField_toNat (w : CmdWord) : (opField w).toNat = w.toNat / 4096 := by
  have := w.isLt
  simp only [opField, BitVec.extractLsb'_toNat, Nat.shiftRight_eq_div_pow]
  omega

/-! ### The five formats (R61)

For each format, when a word is the pattern string with given operands, and that the decoder's reading
of the format gives the operands of exactly that pattern string. -/

theorem variantOfBit_eq_iff {bit : Bool} {var : Variant} :
    variantOfBit bit = var ↔ bit = bitOfVariant var := by
  cases bit <;> cases var <;> decide

theorem ite_eq_ok_iff {p : Prop} [Decidable p] {i j : Instr} {e : DecodeError} :
    (if p then Except.ok j else .error e) = .ok i ↔ p ∧ j = i := by
  split <;> simp [*]

section Formats

variable {w : CmdWord} {op : BitVec 4} {i : Instr}

theorem wordZ_eq_iff : op ++ 0#12 = w ↔ opField w = op ∧ w.extractLsb' 0 12 = 0#12 :=
  append_eq_iff

theorem wordS_eq_iff {sym : Sym5} : op ++ 0#7 ++ sym = w ↔
    opField w = op ∧ w.extractLsb' 5 7 = 0#7 ∧ w.extractLsb' 0 5 = sym :=
  append_append_eq_iff

theorem wordB_eq_iff {byte : Byte} : op ++ 0#4 ++ byte = w ↔
    opField w = op ∧ w.extractLsb' 8 4 = 0#4 ∧ w.extractLsb' 0 8 = byte :=
  append_append_eq_iff

theorem wordV_eq_iff {var : Variant} : op ++ 0#11 ++ BitVec.ofBool (bitOfVariant var) = w ↔
    opField w = op ∧ w.extractLsb' 1 11 = 0#11 ∧ variantOfBit (w.getLsbD 0) = var := by
  rw [variantOfBit_eq_iff, ← extractLsb'_one_eq_ofBool_iff]
  exact append_append_eq_iff

theorem wordC_eq_iff {pad : Bool} {fromBits toBits : WidthField} :
    op ++ 0#3 ++ BitVec.ofBool pad ++ fromBits ++ toBits = w ↔
      opField w = op ∧ w.extractLsb' 9 3 = 0#3 ∧ w.getLsbD 8 = pad ∧
        w.extractLsb' 4 4 = fromBits ∧ w.extractLsb' 0 4 = toBits := by
  rw [← extractLsb'_one_eq_ofBool_iff]
  refine append_append_eq_iff.trans ?_
  rw [eq_comm, append_append_eq_iff]
  simp [extractLsb'_extractLsb', opField, and_assoc]

theorem opField_wordS {sym : Sym5} : opField (op ++ 0#7 ++ sym) = op := (wordS_eq_iff.1 rfl).1
theorem opField_wordB {byte : Byte} : opField (op ++ 0#4 ++ byte) = op := (wordB_eq_iff.1 rfl).1
theorem opField_wordV {var : Variant} :
    opField (op ++ 0#11 ++ BitVec.ofBool (bitOfVariant var)) = op := (wordV_eq_iff.1 rfl).1
theorem opField_wordC {pad : Bool} {fromBits toBits : WidthField} :
    opField (op ++ 0#3 ++ BitVec.ofBool pad ++ fromBits ++ toBits) = op := (wordC_eq_iff.1 rfl).1

variable {n : Nat}

theorem opField_eq_of_toNat (hop : (opField w).toNat = n) : opField w = BitVec.ofNat 4 n := by
  simp [← hop]

theorem formatZ_eq_ok_iff (hop : (opField w).toNat = n) {j : Instr} :
    formatZ w j = .ok i ↔ BitVec.ofNat 4 n ++ 0#12 = w ∧ j = i := by
  simp only [formatZ, ite_eq_ok_iff, wordZ_eq_iff, opField_eq_of_toNat hop, true_and]

theorem formatS_eq_ok_iff (hop : (opField w).toNat = n) {f : Sym5 → Instr} :
    formatS w f = .ok i ↔ ∃ sym, BitVec.ofNat 4 n ++ 0#7 ++ sym = w ∧ f sym = i := by
  simp [formatS, ite_eq_ok_iff, wordS_eq_iff, opField_eq_of_toNat hop, and_assoc]

theorem formatB_eq_ok_iff (hop : (opField w).toNat = n) {f : Byte → Instr} :
    formatB w f = .ok i ↔ ∃ byte, BitVec.ofNat 4 n ++ 0#4 ++ byte = w ∧ f byte = i := by
  simp [formatB, ite_eq_ok_iff, wordB_eq_iff, opField_eq_of_toNat hop, and_assoc]

theorem formatV_eq_ok_iff (hop : (opField w).toNat = n) {f : Variant → Instr} :
    formatV w f = .ok i ↔
      ∃ var, BitVec.ofNat 4 n ++ 0#11 ++ BitVec.ofBool (bitOfVariant var) = w ∧ f var = i := by
  simp [formatV, ite_eq_ok_iff, wordV_eq_iff, opField_eq_of_toNat hop, and_assoc]

theorem formatC_eq_ok_iff (hop : (opField w).toNat = n)
    {f : Bool → WidthField → WidthField → Instr} :
    formatC w f = .ok i ↔ ∃ pad fromBits toBits,
      BitVec.ofNat 4 n ++ 0#3 ++ BitVec.ofBool pad ++ fromBits ++ toBits = w ∧
        f pad fromBits toBits = i := by
  simp [formatC, ite_eq_ok_iff, wordC_eq_iff, opField_eq_of_toNat hop, and_assoc, -Bool.exists_bool]

end Formats

/-! ### The decoder and the encoder (R63, R64) -/

/-- A word that decodes is the word of the command it decodes to: the decoder's arm for each opcode
reads the words of that command's pattern string alone. -/
theorem encode_of_decode {w : CmdWord} {i : Instr} (h : decode w = .ok i) : encode i = w := by
  unfold decode at h
  split at h
  case h_1 hop | h_2 hop | h_7 hop | h_8 hop | h_11 hop =>
    obtain ⟨rfl, rfl⟩ := (formatZ_eq_ok_iff hop).1 h
    rfl
  case h_3 hop =>
    obtain ⟨sym, rfl, rfl⟩ := (formatS_eq_ok_iff hop).1 h
    rfl
  case h_4 hop | h_5 hop | h_10 hop =>
    obtain ⟨byte, rfl, rfl⟩ := (formatB_eq_ok_iff hop).1 h
    rfl
  case h_6 hop =>
    obtain ⟨var, rfl, rfl⟩ := (formatV_eq_ok_iff hop).1 h
    rfl
  case h_9 hop =>
    obtain ⟨pad, fromBits, toBits, rfl, rfl⟩ := (formatC_eq_ok_iff hop).1 h
    rfl
  case h_12 => cases h

/-- The word of a command carries its opcode and its operands in the fields of its format, so the
decoder takes that opcode's arm and reads the operands back. -/
theorem decode_encode (i : Instr) : decode (encode i) = .ok i := by
  cases i with
  | nop | ckInit | ckVfy | ckRd | cvEnd => rfl
  | ckSym sym =>
    simp only [decode, encode, opField_wordS]
    exact (formatS_eq_ok_iff (congrArg BitVec.toNat opField_wordS)).2 ⟨sym, rfl, rfl⟩
  | ckHrph byte | ckHrpl byte | cvPush byte =>
    simp only [decode, encode, opField_wordB]
    exact (formatB_eq_ok_iff (congrArg BitVec.toNat opField_wordB)).2 ⟨byte, rfl, rfl⟩
  | ckGen var =>
    simp only [decode, encode, opField_wordV]
    exact (formatV_eq_ok_iff (congrArg BitVec.toNat opField_wordV)).2 ⟨var, rfl, rfl⟩
  | cvCfg pad fromBits toBits =>
    simp only [decode, encode, opField_wordC]
    exact (formatC_eq_ok_iff (congrArg BitVec.toNat opField_wordC)).2
      ⟨pad, fromBits, toBits, rfl, rfl⟩

/-! ### The rows of the opcode map (R63) -/

/-- How many low bits of its word a command's format leaves to the operands (R61). -/
def operandBits : Instr → Nat
  | .nop => 0
  | .ckInit => 0
  | .ckSym _ => 5
  | .ckHrph _ => 8
  | .ckHrpl _ => 8
  | .ckGen _ => 1
  | .ckVfy => 0
  | .ckRd => 0
  | .cvCfg _ _ _ => 9
  | .cvPush _ => 8
  | .cvEnd => 0

theorem rowMask_eq (row : Instr) : rowMask row = BitVec.allOnes 16 <<< operandBits row := by
  cases row <;> simp [rowMask, operandBits]

/-- The mask clears the operand bits. -/
theorem toNat_and_rowMask (w : CmdWord) (row : Instr) :
    (w &&& rowMask row).toNat = w.toNat / 2 ^ operandBits row * 2 ^ operandBits row := by
  have hle : w.toNat / 2 ^ operandBits row * 2 ^ operandBits row ≤ w.toNat :=
    Nat.div_mul_le_self _ _
  have := w.isLt
  rw [rowMask_eq, ← BitVec.shiftLeft_ushiftRight, BitVec.toNat_shiftLeft, BitVec.toNat_ushiftRight,
    Nat.shiftLeft_eq, Nat.shiftRight_eq_div_pow, Nat.mod_eq_of_lt (by omega)]

/-- A word matches under a row's mask when it has the row's opcode and an argument that is no more than
operand bits. -/
theorem matches_row_iff (w : CmdWord) (row : Instr) :
    w &&& rowMask row = rowMatch row ↔
      w.toNat / 4096 = (rowMatch row).toNat / 4096 ∧ w.toNat % 4096 < 2 ^ operandBits row := by
  rw [← BitVec.toNat_inj, toNat_and_rowMask]
  cases row <;> simp [operandBits, rowMatch] <;> omega

/-- R63's table: each row's mnemonic with its mask and match. -/
def opcodeMap : List (String × CmdWord × CmdWord) :=
  [("NOP", 0xFFFF#16, 0x0000#16), ("CK.INIT", 0xFFFF#16, 0x1000#16),
   ("CK.SYM", 0xFFE0#16, 0x2000#16), ("CK.HRPH", 0xFF00#16, 0x3000#16),
   ("CK.HRPL", 0xFF00#16, 0x4000#16), ("CK.GEN", 0xFFFE#16, 0x5000#16),
   ("CK.VFY", 0xFFFF#16, 0x6000#16), ("CK.RD", 0xFFFF#16, 0x7000#16),
   ("CV.CFG", 0xFE00#16, 0x8000#16), ("CV.PUSH", 0xFF00#16, 0x9000#16),
   ("CV.END", 0xFFFF#16, 0xA000#16)]

theorem row_mem_opcodeMap (i : Instr) : (mnemonic i, rowMask i, rowMatch i) ∈ opcodeMap := by
  cases i <;> simp [opcodeMap, mnemonic, rowMask, rowMatch]

/-- No two rows have one mnemonic. -/
theorem opcodeMap_mnemonic_inj :
    ∀ r ∈ opcodeMap, ∀ r' ∈ opcodeMap, r.1 = r'.1 → r = r' := by
  decide

theorem row_eq_of_mnemonic_eq {i row : Instr} (h : mnemonic i = mnemonic row) :
    rowMask i = rowMask row ∧ rowMatch i = rowMatch row := by
  simpa [h] using
    opcodeMap_mnemonic_inj _ (row_mem_opcodeMap i) _ (row_mem_opcodeMap row) h

/-- R63: the word of a command matches its own row. -/
theorem encode_and_rowMask (i : Instr) : encode i &&& rowMask i = rowMatch i := by
  cases i with
  | nop => exact Laws.MatchesRow.nop
  | ckInit => exact Laws.MatchesRow.ckInit
  | ckSym sym => exact Laws.MatchesRow.ckSym sym
  | ckHrph byte => exact Laws.MatchesRow.ckHrph byte
  | ckHrpl byte => exact Laws.MatchesRow.ckHrpl byte
  | ckGen var => exact Laws.MatchesRow.ckGen var
  | ckVfy => exact Laws.MatchesRow.ckVfy
  | ckRd => exact Laws.MatchesRow.ckRd
  | cvCfg pad fromBits toBits => exact Laws.MatchesRow.cvCfg pad fromBits toBits
  | cvPush byte => exact Laws.MatchesRow.cvPush byte
  | cvEnd => exact Laws.MatchesRow.cvEnd

/-- Matching a row fixes the opcode and the zero bits, so the row's arm of the decoder accepts. -/
theorem decode_of_matches_row {w : CmdWord} {row : Instr} (h : w &&& rowMask row = rowMatch row) :
    ∃ i, decode w = .ok i ∧ mnemonic i = mnemonic row := by
  rw [matches_row_iff, ← opField_toNat] at h
  obtain ⟨hop, hzero⟩ := h
  cases row with
  | nop | ckInit | ckVfy | ckRd | cvEnd =>
    simp only [decode, hop, rowMatch]
    exact ⟨_, if_pos ((zeroBits_iff (k := 0) (by decide) w).2 hzero), rfl⟩
  | ckSym sym =>
    simp only [decode, hop, rowMatch]
    exact ⟨_, if_pos ((zeroBits_iff (k := 5) (by decide) w).2 hzero), rfl⟩
  | ckHrph byte | ckHrpl byte | cvPush byte =>
    simp only [decode, hop, rowMatch]
    exact ⟨_, if_pos ((zeroBits_iff (k := 8) (by decide) w).2 hzero), rfl⟩
  | ckGen var =>
    simp only [decode, hop, rowMatch]
    exact ⟨_, if_pos ((zeroBits_iff (k := 1) (by decide) w).2 hzero), rfl⟩
  | cvCfg pad fromBits toBits =>
    simp only [decode, hop, rowMatch]
    exact ⟨_, if_pos ((zeroBits_iff (k := 9) (by decide) w).2 hzero), rfl⟩

theorem decode_row_iff (w : CmdWord) (row : Instr) :
    (∃ i, decode w = .ok i ∧ mnemonic i = mnemonic row) ↔ w &&& rowMask row = rowMatch row := by
  refine ⟨?_, decode_of_matches_row⟩
  rintro ⟨i, hdecode, hname⟩
  obtain ⟨hmask, hmatch⟩ := row_eq_of_mnemonic_eq hname
  rw [← hmask, ← hmatch, ← encode_of_decode hdecode]
  exact encode_and_rowMask i

/-- A word is illegal when it matches no row. -/
theorem decode_error_iff (w : CmdWord) :
    (∃ e, decode w = .error e) ↔ ∀ row, ¬ w &&& rowMask row = rowMatch row := by
  simp only [← decode_row_iff]
  cases decode w with
  | error e => simp
  | ok i => simp

/-- What holds of every row of the opcode map is eleven facts, one per row. -/
theorem forall_row_iff {p : CmdWord → Nat → Prop} :
    (∀ row, p (rowMatch row) (operandBits row)) ↔
      p 0x0000#16 0 ∧ p 0x1000#16 0 ∧ p 0x2000#16 5 ∧ p 0x3000#16 8 ∧ p 0x4000#16 8 ∧
        p 0x5000#16 1 ∧ p 0x6000#16 0 ∧ p 0x7000#16 0 ∧ p 0x8000#16 9 ∧ p 0x9000#16 8 ∧
        p 0xA000#16 0 := by
  constructor
  · intro h
    exact ⟨h .nop, h .ckInit, h (.ckSym 0#5), h (.ckHrph 0#8), h (.ckHrpl 0#8), h (.ckGen .a),
      h .ckVfy, h .ckRd, h (.cvCfg false 0#4 0#4), h (.cvPush 0#8), h .cvEnd⟩
  · rintro ⟨_, _, _, _, _, _, _, _, _, _, _⟩ row
    cases row <;> assumption

/-- R65: the illegal words, by their opcode and their argument. -/
theorem decode_error_iff_toNat (w : CmdWord) :
    (∃ e, decode w = .error e) ↔
      11 ≤ w.toNat / 4096 ∨
      (w.toNat / 4096 ∈ [0, 1, 6, 7, 10] ∧ w.toNat % 4096 ≠ 0) ∨
      (w.toNat / 4096 = 2 ∧ 32 ≤ w.toNat % 4096) ∨
      (w.toNat / 4096 ∈ [3, 4, 9] ∧ 256 ≤ w.toNat % 4096) ∨
      (w.toNat / 4096 = 5 ∧ 2 ≤ w.toNat % 4096) ∨
      (w.toNat / 4096 = 8 ∧ 512 ≤ w.toNat % 4096) := by
  simp only [decode_error_iff, matches_row_iff]
  rw [forall_row_iff
    (p := fun m k => ¬ (w.toNat / 4096 = m.toNat / 4096 ∧ w.toNat % 4096 < 2 ^ k))]
  generalize w.toNat / 4096 = op, w.toNat % 4096 = arg
  rcases Nat.lt_or_ge op 11 with hlt | hge
  · interval_cases op <;> simp
    omega
  · simp only [BitVec.toNat_ofNat, hge, true_or, iff_true]
    omega

/-! ### A word that is no command, handed over -/

theorem step_of_decode_error {s : State} {w : CmdWord} {e : DecodeError} {rest : List HostInput}
    (hin : s.inputs = .cmd w :: rest) (h : decode w = .error e) :
    step s = illegalWord (setInputs rest s) := by
  simp [step, hin, h]

/-! ### The shape of a response (R67) -/

/-- A response without groups is of the stated shape when its other fields are what the status lets
them be. -/
theorem responseOk_of_no_groups {r : Response} (hcount : r.count = 0#4)
    (hgroup : r.group = Vector.replicate 8 0#8)
    (hok : r.status ≠ .ok → r.value = 0#30 ∧ r.variant = none)
    (herr : r.status ≠ .invalidInputValue → r.errval = 0#8) : ResponseOk r := by
  refine ⟨by simp [hcount], by simp [hcount, hgroup], fun h => ?_, herr⟩
  obtain ⟨hvalue, hvariant⟩ := hok h
  exact ⟨hvalue, hcount, hvariant⟩

theorem responseOk_of_value (value : Chk) (variant : Option Variant) :
    ResponseOk { value := value, variant := variant } :=
  responseOk_of_no_groups rfl rfl (absurd rfl) fun _ => rfl

theorem responseOk_of_status (st : Status) : ResponseOk { status := st } :=
  responseOk_of_no_groups rfl rfl (fun _ => ⟨rfl, rfl⟩) fun _ => rfl

theorem responseOk_checksumResponse (m : Chk) : ResponseOk (checksumResponse m) := by
  obtain ⟨hcount, hslots, -, herr⟩ :=
    responseOk_groupsResponse (gs := (cutSix m).map (·.zeroExtend 8)) (by simp [cutSix])
  exact ⟨hcount, hslots, absurd rfl, herr⟩

theorem padGroups_length_le_one (t acc bits : Nat) : (padGroups t acc bits).length ≤ 1 := by
  unfold padGroups
  split <;> simp

/-- With widths and a buffer that the rules speak of, a push emits at most eight groups, and none when
the value is too wide. -/
theorem responseOk_pushValue (byte : Byte) {b : Block} (hok : converterFault b = none) :
    ResponseOk (pushValue byte b).2 := by
  obtain ⟨⟨-, hf8⟩, ⟨ht1, -⟩, hbits, -⟩ := converterFault_eq_none.1 hok
  obtain ⟨-, heq⟩ | ⟨-, heq⟩ := pushValue_cases byte b
  · rw [heq]
    exact responseOk_groupsResponse (regroup_groups_le_eight hf8 ht1 hbits)
  · rw [heq]
    exact (raise_response _ b).2

theorem responseOk_endConversion (b : Block) : ResponseOk (endConversion b).2 := by
  obtain ⟨-, heq⟩ | ⟨-, -, heq⟩ | ⟨-, -, heq⟩ := endConversion_cases b
  · rw [heq]
    exact responseOk_groupsResponse ((padGroups_length_le_one ..).trans (by decide))
  · rw [heq]
    exact (raise_response _ b).2
  · rw [heq]
    exact responseOk_of_status .ok

/-- CV.PUSH and CV.END answer under the invariant, in every phase. -/
theorem whileRunning_answers {b : Block} (hi : b.Inv) (answer : Block × Response) :
    ∃ a, whileRunning b (.next answer) = .next a := by
  cases hp : b.cvPhase with
  | run => exact ⟨answer, whileRunning_run hp (hi.converterFault_none (by simp [hp])) _⟩
  | _ => exact ⟨_, by simp only [whileRunning, hp]; rfl⟩

/-- The refusals of CV.PUSH and CV.END outside phase RUN are of the stated shape, so their answers are
when those of their work in phase RUN are. -/
theorem responseOk_of_whileRunning {b : Block} {a answer : Block × Response}
    (hwork : converterFault b = none → ResponseOk answer.2)
    (h : whileRunning b (.next answer) = .next a) : ResponseOk a.2 := by
  obtain ⟨-, rfl⟩ | ⟨-, rfl⟩ | ⟨-, rfl⟩ | ⟨-, hok, heq⟩ := whileRunning_next h
  · exact responseOk_of_status .seqError
  · exact responseOk_of_no_groups rfl rfl (fun _ => ⟨rfl, rfl⟩) (absurd rfl)
  · exact responseOk_of_status .invalidPadding
  · cases heq
    exact hwork hok

/-- Under the invariant every command is answered, by a response of the stated shape. -/
theorem reply_answers {b : Block} (hi : b.Inv) (i : Instr) :
    ∃ a, reply i b = .next a ∧ ResponseOk a.2 := by
  rcases Bool.eq_false_or_eq_true b.fatal with hf | hf
  · exact ⟨_, reply_of_fatal hf i, responseOk_of_status .fatal⟩
  · cases i with
    | nop => exact ⟨_, replyNop_of_live hf, responseOk_of_status .ok⟩
    | ckInit => exact ⟨_, replyCkInit_of_live hf, responseOk_of_value _ none⟩
    | ckSym sym => exact ⟨_, replyCkSym_of_live hf sym, responseOk_of_value _ none⟩
    | ckHrph byte => exact ⟨_, replyCkHrph_of_live hf byte, responseOk_of_value _ none⟩
    | ckHrpl byte => exact ⟨_, replyCkHrpl_of_live hf byte, responseOk_of_value _ none⟩
    | ckGen var => exact ⟨_, replyCkGen_of_live hf var, responseOk_checksumResponse _⟩
    | ckVfy => exact ⟨_, replyCkVfy_of_live hf, responseOk_of_value _ _⟩
    | ckRd => exact ⟨_, replyCkRd_of_live hf, responseOk_of_value _ none⟩
    | cvCfg pad f d =>
      rw [replyCvCfg_of_live hf]
      split
      · exact ⟨_, rfl, responseOk_of_status .ok⟩
      · exact ⟨_, rfl, responseOk_of_status .fatal⟩
    | cvPush byte =>
      rw [replyCvPush_of_live hf]
      obtain ⟨a, ha⟩ := whileRunning_answers hi (pushValue byte b)
      exact ⟨a, ha, responseOk_of_whileRunning (responseOk_pushValue byte) ha⟩
    | cvEnd =>
      rw [replyCvEnd_of_live hf]
      obtain ⟨a, ha⟩ := whileRunning_answers hi (endConversion b)
      exact ⟨a, ha, responseOk_of_whileRunning (fun _ => responseOk_endConversion b) ha⟩

/-! ### The obligations of 30_encoding.md -/

/-- Settles O2, by the decoder's arm for the opcode of each constructor. -/
theorem decodeUndoesEncode : Obligations.DecodeUndoesEncode :=
  fun i _ => decode_encode i

/-- Settles O3, by the format that each opcode selects. -/
theorem encodeUndoesDecode : Obligations.EncodeUndoesDecode :=
  fun _ _ => encode_of_decode

/-- Settles O4: a row's mask tests the opcode and the zero bits, as the decoder does. -/
theorem decodedExactlyWhenMaskMatches : Obligations.DecodedExactlyWhenMaskMatches :=
  decode_row_iff

/-- Settles O5: a word is illegal when it matches no row, and a word that is no command leaves the
block as it was. -/
theorem illegalWordsAreRefusedWithoutEffect :
    Obligations.IllegalWordsAreRefusedWithoutEffect := by
  refine ⟨decode_error_iff_toNat, fun s w e rest hlive hin hdecode => ?_⟩
  rw [step_of_decode_error hin hdecode, illegalWord_eq]
  simp [deliver, setInputs, hlive]

/-- Settles O6: the emitted words are the encoded expansion, and each decodes to its command. -/
theorem assembledLinesDecodeToTheirExpansion :
    Obligations.AssembledLinesDecodeToTheirExpansion := by
  refine ⟨fun l hl => ⟨(expandLine l).map encode, by simp [assembleLine, hl], ?_⟩,
    fun l hl => by simp [assembleLine, hl], fun bytes => ?_⟩
  · simp [Function.comp_def, decode_encode]
  · simp only [expandLine, hrpCommands, List.length_append, List.length_map, List.length_singleton]
    omega

/-- Settles O36: the port delivers the one response of the block's reply. -/
theorem everyCommandIsAnsweredOnce : Obligations.EveryCommandIsAnsweredOnce := by
  intro s i hi
  obtain ⟨a, hreply, hshape⟩ := reply_answers hi i
  exact ⟨_, a.2, exec_of_reply hreply, rfl, hshape⟩

/-- Settles O1, by decoding each word. -/
theorem handEncodedWordsDecode : Obligations.HandEncodedWordsDecode :=
  ⟨rfl, rfl, rfl, rfl, rfl, rfl, rfl, rfl, rfl, rfl⟩

end Sys2Proof.Machine

/-! ## The checksum engine (40_checksum_engine.md): the polynomial as a linear map, the checksum it
creates and verifies, and the commands that compute it one symbol at a time -/

namespace Sys2Proof.Machine

/-! ### The step (R82) -/

/-- A generator, when the feedback bit it goes with is set. -/
def gated (bit : Bool) (g : Chk) : Chk :=
  if bit then g else 0#30

theorem gated_xor (p q : Bool) (g : Chk) : gated (p ^^ q) g = gated p g ^^^ gated q g := by
  cases p <;> cases q <;> simp [gated]

/-- R82: what the five bits above the mask feed back into the step. -/
def feedback (cfg : Config) (c : Chk) : Chk :=
  gated (c.getLsbD 29) cfg.gen4 ^^^ gated (c.getLsbD 28) cfg.gen3 ^^^
    gated (c.getLsbD 27) cfg.gen2 ^^^ gated (c.getLsbD 26) cfg.gen1 ^^^
    gated (c.getLsbD 25) cfg.gen0

theorem feedback_xor (cfg : Config) (c d : Chk) :
    feedback cfg (c ^^^ d) = feedback cfg c ^^^ feedback cfg d := by
  simp only [feedback, BitVec.getLsbD_xor, gated_xor]
  ac_rfl

/-- A value with no bit above the mask feeds nothing back. -/
theorem feedback_setWidth (cfg : Config) {n : Nat} (hn : n ≤ 25) (w : BitVec n) :
    feedback cfg (w.setWidth 30) = 0#30 := by
  have hbit (k : Nat) (hk : 25 ≤ k) : w.getLsbD k = false :=
    BitVec.getLsbD_of_ge w k (by omega)
  simp [feedback, hbit, gated]

/-- The shift drops the bits above the mask by itself. -/
theorem masked_shiftLeft (c : Chk) : (c &&& 0x1ffffff#30) <<< 5 = c <<< 5 := by
  have hmask : 0x1ffffff#30 <<< 5 = BitVec.allOnes 30 <<< 5 := by decide
  rw [BitVec.shiftLeft_and_distrib, hmask, ← BitVec.shiftLeft_and_distrib, BitVec.and_allOnes]

/-- The symbol comes in below the five zeros of the shift, so no bit of it meets another. -/
theorem shiftLeft_or_symbol (c : Chk) (v : Sym5) :
    c <<< 5 ||| v.setWidth 30 = c <<< 5 ^^^ v.setWidth 30 := by
  ext j hj
  by_cases hlow : j < 5
  · simp [hlow]
  · simp [BitVec.getLsbD_of_ge v j (by omega)]

theorem shiftLeft_xor_symbol_eq_ofNat (c : Chk) (v : Sym5) :
    c <<< 5 ^^^ v.setWidth 30 = BitVec.ofNat 30 (c.toNat % 2 ^ 25 * 32 + v.toNat) := by
  have hv := v.isLt
  have hshift : c.toNat <<< 5 % 2 ^ 30 = (c.toNat % 2 ^ 25) <<< 5 := by
    simp only [Nat.shiftLeft_eq]
    omega
  have hsymbol : v.toNat % 2 ^ 30 = v.toNat := Nat.mod_eq_of_lt (by omega)
  rw [← shiftLeft_or_symbol]
  apply BitVec.eq_of_toNat_eq
  rw [BitVec.toNat_or, BitVec.toNat_shiftLeft, BitVec.toNat_setWidth, hshift, hsymbol,
    ← Nat.shiftLeft_add_eq_or_of_lt hv, Nat.shiftLeft_eq, BitVec.toNat_ofNat]
  omega

/-- The step as three linear parts; the order of the five exclusive-ors of R82 does not matter. -/
theorem polymodStep_eq (cfg : Config) (c : Chk) (v : Sym5) :
    polymodStep cfg c v = c <<< 5 ^^^ v.setWidth 30 ^^^ feedback cfg c := by
  have hgate (bit : Bool) (t g : Chk) : (if bit then t ^^^ g else t) = t ^^^ gated bit g := by
    cases bit <;> simp [gated]
  have htop (k : Nat) (hk : k < 5) : (c.extractLsb' 25 5).getLsbD k = c.getLsbD (25 + k) := by
    simp [hk]
  simp only [polymodStep, hgate, htop, Nat.reduceLT, masked_shiftLeft, BitVec.zeroExtend,
    shiftLeft_or_symbol, feedback]
  ac_rfl

theorem polymodStep_zero (cfg : Config) (v : Sym5) : polymodStep cfg 0#30 v = v.setWidth 30 := by
  simp [polymodStep_eq, feedback, gated]

/-- R82's corner case: nothing is fed back from a value below the mask, so the symbol is appended. -/
theorem polymodStep_setWidth (cfg : Config) {n : Nat} (hn : n ≤ 25) (w : BitVec n) (v : Sym5) :
    polymodStep cfg (w.setWidth 30) v = (w ++ v).setWidth 30 := by
  rw [polymodStep_eq, feedback_setWidth cfg hn]
  ext j hj
  by_cases hlow : j < 5
  · simp [hlow, BitVec.getLsbD_append]
  · simp [hlow, BitVec.getLsbD_append, BitVec.getLsbD_of_ge v j (by omega)]

theorem polymodStep_xor (cfg : Config) (c d : Chk) (v w : Sym5) :
    polymodStep cfg (c ^^^ d) (v ^^^ w) = polymodStep cfg c v ^^^ polymodStep cfg d w := by
  simp only [polymodStep_eq, feedback_xor, BitVec.shiftLeft_xor_distrib, BitVec.setWidth_xor]
  ac_rfl

/-! ### The remainder of a sequence (R83, R96) -/

theorem polymodFrom_append (cfg : Config) (c : Chk) (xs ys : List Sym5) :
    polymodFrom cfg c (xs ++ ys) = polymodFrom cfg (polymodFrom cfg c xs) ys := by
  induction xs generalizing c with
  | nil => rfl
  | cons x xs ih => exact ih (polymodStep cfg c x)

theorem polymod_append (cfg : Config) (xs ys : List Sym5) :
    polymod cfg (xs ++ ys) = polymodFrom cfg (polymod cfg xs) ys :=
  polymodFrom_append cfg seed xs ys

/-- Superposition: a difference in the accumulator moves on as if only zeros followed. -/
theorem polymodFrom_xor (cfg : Config) (c d : Chk) (ws : List Sym5) :
    polymodFrom cfg (c ^^^ d) ws =
      polymodFrom cfg c (List.replicate ws.length 0#5) ^^^ polymodFrom cfg d ws := by
  induction ws generalizing c d with
  | nil => rfl
  | cons w ws ih =>
    have hstep := polymodStep_xor cfg c d 0#5 w
    rw [BitVec.zero_xor] at hstep
    exact (congrArg (polymodFrom cfg · ws) hstep).trans (ih _ _)

/-- Zeros shift a value up as long as it stays within the 30 bits. -/
theorem polymodFrom_zeros (cfg : Config) {n k : Nat} (hn : n + 5 * k ≤ 30) (w : BitVec n) :
    polymodFrom cfg (w.setWidth 30) (List.replicate k 0#5) = w.setWidth 30 <<< (5 * k) := by
  induction k generalizing n w with
  | zero => simp [polymodFrom]
  | succ k ih =>
    have happend : (w ++ 0#5).setWidth 30 = w.setWidth 30 <<< 5 := by
      ext j hj
      simp [BitVec.getLsbD_append]
    rw [List.replicate_succ, polymodFrom, polymodStep_setWidth cfg (by omega), ih (by omega),
      happend, ← BitVec.shiftLeft_add, Nat.mul_add, Nat.add_comm]

theorem polymodFrom_zero_six (cfg : Config) (w0 w1 w2 w3 w4 w5 : Sym5) :
    polymodFrom cfg 0#30 [w0, w1, w2, w3, w4, w5] = w0 ++ w1 ++ w2 ++ w3 ++ w4 ++ w5 := by
  simp [polymodFrom, polymodStep_zero, polymodStep_setWidth]

/-- R96 (c), from any accumulator: the six symbols are a difference from six zeros. -/
theorem polymodFrom_six (cfg : Config) (c : Chk) (w0 w1 w2 w3 w4 w5 : Sym5) :
    polymodFrom cfg c [w0, w1, w2, w3, w4, w5] =
      polymodFrom cfg c sixZeros ^^^ (w0 ++ w1 ++ w2 ++ w3 ++ w4 ++ w5) := by
  have h := polymodFrom_xor cfg c 0#30 [w0, w1, w2, w3, w4, w5]
  rwa [BitVec.xor_zero, polymodFrom_zero_six] at h

/-- A change of one symbol is a difference in the accumulator, which the symbols after it shift up. -/
theorem polymod_changed_symbol (cfg : Config) (before : List Sym5) {after : List Sym5}
    (x d : Sym5) (hlen : after.length ≤ 5) :
    polymod cfg (before ++ (x ^^^ d) :: after) =
      polymod cfg (before ++ x :: after) ^^^ (d.setWidth 30 <<< (5 * after.length)) := by
  have hstep := polymodStep_xor cfg 0#30 (polymod cfg before) d x
  rw [BitVec.zero_xor, polymodStep_zero, BitVec.xor_comm d x] at hstep
  rw [polymod_append, polymod_append, polymodFrom, polymodFrom, hstep, polymodFrom_xor,
    polymodFrom_zeros cfg (by omega), BitVec.xor_comm]

theorem symbol_shiftLeft_ne_zero {k : Nat} (hk : k ≤ 5) {d : Sym5} (hd : d ≠ 0#5) :
    d.setWidth 30 <<< (5 * k) ≠ 0#30 := by
  intro h
  apply hd
  ext j hj
  have hbit := congrArg (BitVec.getLsbD · (5 * k + j)) h
  simpa [show 5 * k + j < 30 by omega, BitVec.getLsbD_eq_getElem hj] using hbit

/-! ### Checksums (R85, R86) -/

/-- R42: the six groups of a value, first one highest, spell the value. -/
theorem cutSix_join (m : Chk) :
    m.extractLsb' 25 5 ++ m.extractLsb' 20 5 ++ m.extractLsb' 15 5 ++ m.extractLsb' 10 5 ++
      m.extractLsb' 5 5 ++ m.extractLsb' 0 5 = m := by
  simp only [BitVec.extractLsb'_append_extractLsb'_eq_extractLsb']
  exact BitVec.extractLsb'_eq_self

theorem polymodFrom_cutSix (cfg : Config) (c m : Chk) :
    polymodFrom cfg c (cutSix m) = polymodFrom cfg c sixZeros ^^^ m :=
  (polymodFrom_six cfg c ..).trans (congrArg _ (cutSix_join m))

/-- R85 as R92 computes it: the zeros of the padding continue from the message's own remainder. -/
theorem createChecksum_eq (cfg : Config) (hrp : List Byte) (data : List Sym5) (var : Variant) :
    createChecksum cfg hrp data var =
      cutSix (finishChecksum cfg (polymod cfg (expandPrefix hrp ++ data)) var) := by
  rw [createChecksum, polymod_append, finishChecksum]

/-- Appending its checksum makes a message's remainder the variant's constant: the six zeros cancel. -/
theorem polymod_with_checksum (cfg : Config) (hrp : List Byte) (data : List Sym5) (var : Variant) :
    polymod cfg (expandPrefix hrp ++ (data ++ createChecksum cfg hrp data var)) =
      variantConst cfg var := by
  rw [← List.append_assoc, polymod_append, createChecksum_eq, polymodFrom_cutSix, finishChecksum,
    ← BitVec.xor_assoc, BitVec.xor_self, BitVec.zero_xor]

theorem identifyVariant_variantConst {cfg : Config} {var : Variant}
    (h : var = .b → cfg.ConstsDiffer) : identifyVariant cfg (variantConst cfg var) = some var := by
  cases var with
  | a => simp [identifyVariant, variantConst]
  | b => simp [identifyVariant, variantConst, (h rfl).symm]

theorem variantCode_identifyVariant (cfg : Config) (p : Chk) :
    variantCode (identifyVariant cfg p) =
      if p = cfg.constA then 1#2 else if p = cfg.constB then 2#2 else 0#2 := by
  unfold identifyVariant
  split
  · rfl
  · split <;> rfl

/-! ### The words of the commands -/

theorem append_eq_shiftLeft_or {a k : Nat} (x : BitVec a) (y : BitVec k) :
    x ++ y = x.setWidth (a + k) <<< k ||| y.setWidth (a + k) := by
  rw [BitVec.append_def, BitVec.shiftLeftZeroExtend_eq, BitVec.setWidth'_eq]

theorem encode_ckSym (sym : Sym5) : encode (.ckSym sym) = 0x2000#16 ||| sym.setWidth 16 :=
  append_eq_shiftLeft_or (0x2#4 ++ 0#7) sym

theorem encode_ckHrph (byte : Byte) : encode (.ckHrph byte) = 0x3000#16 ||| byte.setWidth 16 :=
  append_eq_shiftLeft_or (0x3#4 ++ 0#4) byte

theorem encode_ckHrpl (byte : Byte) : encode (.ckHrpl byte) = 0x4000#16 ||| byte.setWidth 16 :=
  append_eq_shiftLeft_or (0x4#4 ++ 0#4) byte

/-! ### The symbols and the response of a command (R89 to R92) -/

theorem highPart_eq_ofNat (byte : Byte) : highPart byte = BitVec.ofNat 5 (byte.toNat / 32) := by
  rw [← highPart_toNat, BitVec.ofNat_toNat, BitVec.setWidth_eq]

theorem lowPart_eq_ofNat (byte : Byte) : lowPart byte = BitVec.ofNat 5 (byte.toNat % 32) := by
  rw [← lowPart_toNat, BitVec.ofNat_toNat, BitVec.setWidth_eq]

theorem exec_ckSym_of_live {s : State} (hlive : s.fatal = false) (sym : Sym5) :
    exec (.ckSym sym) s =
      .next { s with chk := polymodStep engineConfig s.chk sym,
                     rsps := s.rsps ++ [{ value := polymodStep engineConfig s.chk sym }] } :=
  exec_of_reply (replyCkSym_of_live hlive sym)

theorem exec_ckHrph_eq_ckSym (byte : Byte) (s : State) :
    exec (.ckHrph byte) s = exec (.ckSym (highPart byte)) s := rfl

theorem exec_ckHrpl_eq_ckSym (byte : Byte) (s : State) :
    exec (.ckHrpl byte) s = exec (.ckSym (lowPart byte)) s := rfl

theorem groupSlots_six (g0 g1 g2 g3 g4 g5 : Byte) :
    groupSlots [g0, g1, g2, g3, g4, g5] = #v[g0, g1, g2, g3, g4, g5, 0#8, 0#8] := rfl

theorem extractLsb'_five_setWidth (m : Chk) (hi : Nat) :
    (m.extractLsb' hi 5).setWidth 8 = BitVec.ofNat 8 (m.toNat / 2 ^ hi % 32) := by
  apply BitVec.eq_of_toNat_eq
  simp [Nat.shiftRight_eq_div_pow]

/-- R92, R67: the six symbols of a checksum in their slots, by their places in the 30 bits. -/
theorem checksumResponse_eq (m : Chk) :
    let slot (hi : Nat) : Byte := BitVec.ofNat 8 (m.toNat / 2 ^ hi % 32)
    checksumResponse m =
      { count := 6#4, value := m,
        group := #v[slot 25, slot 20, slot 15, slot 10, slot 5, slot 0, 0#8, 0#8] } := by
  simp [checksumResponse, groupsResponse, cutSix, groupSlots_six, extractLsb'_five_setWidth]

theorem validGroups_checksumResponse (m : Chk) :
    validGroups (checksumResponse m) = (cutSix m).map (·.zeroExtend 8) := by
  have h := validGroups_groupsResponse (gs := (cutSix m).map (·.zeroExtend 8)) (by simp [cutSix])
  simpa only [validGroups, checksumResponse] using h

/-! ### What a command absorbs (R95) -/

/-- A command of the checksum engine, or NOP, absorbs its symbols into a live block and is answered OK.
CK.INIT is left out, as it seeds. -/
theorem reply_of_engine_command {i : Instr} (hi : isBwc i = false) (hinit : i ≠ .ckInit)
    {b : Block} (hlive : b.fatal = false) :
    ∃ r, r.status = .ok ∧
      reply i b = .next (setChk (polymodFrom engineConfig b.chk (absorbedSymbols i)) b, r) := by
  cases i with
  | nop => exact ⟨_, rfl, replyNop_of_live hlive⟩
  | ckInit => exact absurd rfl hinit
  | ckSym sym => exact ⟨_, rfl, replyCkSym_of_live hlive sym⟩
  | ckHrph byte => exact ⟨_, rfl, replyCkHrph_of_live hlive byte⟩
  | ckHrpl byte => exact ⟨_, rfl, replyCkHrpl_of_live hlive byte⟩
  | ckGen var => exact ⟨_, rfl, replyCkGen_of_live hlive var⟩
  | ckVfy => exact ⟨_, rfl, replyCkVfy_of_live hlive⟩
  | ckRd => exact ⟨_, rfl, replyCkRd_of_live hlive⟩
  | cvCfg pad f d => simp [isBwc] at hi
  | cvPush byte => simp [isBwc] at hi
  | cvEnd => simp [isBwc] at hi

theorem absorbedSymbols_of_isBwc {i : Instr} (hi : isBwc i = true) : absorbedSymbols i = [] := by
  cases i with
  | cvCfg pad f d | cvPush byte | cvEnd => rfl
  | _ => simp [isBwc] at hi

/-- Whatever a live block answers to a command other than CK.INIT, it has absorbed the command's
symbols. -/
theorem chk_of_reply {i : Instr} (hinit : i ≠ .ckInit) {b : Block} (hlive : b.fatal = false)
    {a : Block × Response} (h : reply i b = .next a) :
    a.1.chk = polymodFrom engineConfig b.chk (absorbedSymbols i) := by
  cases hi : isBwc i with
  | false =>
    obtain ⟨r, -, hreply⟩ := reply_of_engine_command hi hinit hlive
    cases hreply.symm.trans h
    rfl
  | true =>
    rw [absorbedSymbols_of_isBwc hi]
    exact (writes_of_reply h).chk_of_isBwc hi

/-- Only a bad width aborts a live block. -/
theorem Writes.live {i : Instr} {b c : Block} (h : Writes i b c) (hw : hasBadWidth i = false)
    (hlive : b.fatal = false) : c.fatal = false := by
  by_contra hne
  obtain ⟨hbad, -⟩ := h.fatal_writers fun heq => hne (heq.trans hlive)
  simp [hw] at hbad

/-! ### Runs of commands (R95) -/

/-- A run replaces the moves that were left to make. -/
theorem serve_setInputs (ms ins : List HostInput) (s : State) :
    serve ms (setInputs ins s) = serve ms s := rfl

/-- A run of commands delivers the reply to the first and goes on with the rest. -/
theorem serve_of_reply {i : Instr} {s : State} {a : Block × Response} (is : List Instr)
    (h : reply i s.toBlock = .next a) :
    serve (commands (i :: is)) s = serve (commands is) (deliver s a) :=
  (serve_command is (decode_encode i) (exec_of_reply (s := setInputs (commands is) s) h)).trans
    (serve_setInputs _ _ (deliver s a))

theorem serve_of_last_reply {i : Instr} {s : State} {a : Block × Response}
    (h : reply i s.toBlock = .next a) :
    serve (commands [i]) s = .next (setInputs [] (deliver s a)) :=
  serve_of_reply [] h

/-- A run without a bad width and without CK.INIT absorbs the symbols of its commands. -/
theorem serve_absorbs {is : List Instr} (his : ∀ i ∈ is, hasBadWidth i = false ∧ i ≠ .ckInit)
    {s : State} (hinv : s.Inv) (hlive : s.fatal = false) :
    ∃ t, serve (commands is) s = .next t ∧
      t.chk = polymodFrom engineConfig s.chk (is.flatMap absorbedSymbols) := by
  induction is generalizing s with
  | nil => exact ⟨_, serve_nil s, rfl⟩
  | cons i is ih =>
    obtain ⟨⟨hwidth, hinit⟩, hrest⟩ := List.forall_mem_cons.1 his
    obtain ⟨a, hreply, -⟩ := reply_answers hinv i
    have hwrites := writes_of_reply hreply
    obtain ⟨t, hserve, hchk⟩ :=
      ih hrest (s := deliver s a) (hwrites.inv hinv) (hwrites.live hwidth hlive)
    refine ⟨t, (serve_of_reply is hreply).trans hserve, ?_⟩
    rw [hchk, deliver_toBlock, chk_of_reply hinit hlive hreply, List.flatMap_cons,
      polymodFrom_append]

/-- Commands of the checksum engine other than CK.INIT, at the head of a run, absorb their symbols and
are all answered OK, whatever state the converter is in. -/
theorem serve_engine_commands {is : List Instr}
    (his : ∀ i ∈ is, isBwc i = false ∧ i ≠ .ckInit) (js : List Instr) {s : State}
    (hlive : s.fatal = false) :
    ∃ u rs, serve (commands (is ++ js)) s = serve (commands js) u ∧ u.fatal = false ∧
      u.chk = polymodFrom engineConfig s.chk (is.flatMap absorbedSymbols) ∧
      u.rsps = s.rsps ++ rs ∧ ∀ q ∈ rs, q.status = .ok := by
  induction is generalizing s with
  | nil => exact ⟨s, [], rfl, hlive, rfl, by simp, by simp⟩
  | cons i is ih =>
    obtain ⟨⟨hi, hinit⟩, hrest⟩ := List.forall_mem_cons.1 his
    obtain ⟨r, hr, hreply⟩ := reply_of_engine_command hi hinit hlive
    obtain ⟨u, rs, hserve, hfatal, hchk, hrsps, hrs⟩ :=
      ih hrest (s := deliver s
        (setChk (polymodFrom engineConfig s.chk (absorbedSymbols i)) s.toBlock, r)) hlive
    refine ⟨u, r :: rs, (serve_of_reply (is ++ js) hreply).trans hserve, hfatal, ?_,
      by simp [hrsps], List.forall_mem_cons.2 ⟨hr, hrs⟩⟩
    rw [hchk, List.flatMap_cons, polymodFrom_append]
    rfl

/-- R72: `CK.HRP` is the streaming form of `expand_prefix`. -/
theorem hrpCommands_absorb (hrp : List Byte) :
    (hrpCommands hrp).flatMap absorbedSymbols = expandPrefix hrp := by
  simp [hrpCommands, expandPrefix, List.flatMap_map, absorbedSymbols, ← List.map_eq_flatMap]

/-- What R184 and R185 share: CK.INIT, the expanded bytes and the data, sent before the commands `js`. -/
theorem serve_message (hrp : List Byte) (data : List Sym5) (js : List Instr) {s : State}
    (hlive : s.fatal = false) :
    ∃ u rs, serve (commands ([.ckInit] ++ hrpCommands hrp ++ data.map .ckSym ++ js)) s =
        serve (commands js) u ∧ u.fatal = false ∧
      u.chk = polymod engineConfig (expandPrefix hrp ++ data) ∧
      u.rsps = s.rsps ++ rs ∧ ∀ q ∈ rs, q.status = .ok := by
  have hengine : ∀ i ∈ hrpCommands hrp ++ data.map Instr.ckSym, isBwc i = false ∧ i ≠ .ckInit := by
    simp only [hrpCommands, List.forall_mem_append, List.forall_mem_map, List.forall_mem_singleton]
    simp [isBwc]
  have habsorbed : (hrpCommands hrp ++ data.map Instr.ckSym).flatMap absorbedSymbols =
      expandPrefix hrp ++ data := by
    simp [hrpCommands_absorb, List.flatMap_map, absorbedSymbols]
  obtain ⟨u, rs, hserve, hfatal, hchk, hrsps, hrs⟩ := serve_engine_commands hengine js
    (s := deliver s (setChk seed s.toBlock, valueResponse seed)) hlive
  rw [habsorbed] at hchk
  exact ⟨u, valueResponse seed :: rs, (serve_of_reply _ (replyCkInit_of_live hlive)).trans hserve,
    hfatal, hchk, by simp [hrsps], List.forall_mem_cons.2 ⟨rfl, hrs⟩⟩

/-! ### The obligations of 40_checksum_engine.md -/

/-- Settles O27: the reply to CK.GEN, with the six symbols read off by place. -/
theorem ckGenAnswersTheChecksum : Obligations.CkGenAnswersTheChecksum := by
  refine fun s var hlive => ⟨?_, by decide, by decide⟩
  intro c m slot
  have hm : finishChecksum engineConfig s.chk var = m := by cases var <;> rfl
  refine (exec_of_reply (replyCkGen_of_live hlive var)).trans ?_
  rw [hm, checksumResponse_eq]
  rfl

/-- Settles O28: the reply to CK.VFY carries the variant it identifies, whose code is the one asked
for. -/
theorem ckVfyReportsTheVariant : Obligations.CkVfyReportsTheVariant :=
  ⟨rfl, fun _ hlive => ⟨_, exec_of_reply (replyCkVfy_of_live hlive), rfl,
    variantCode_identifyVariant engineConfig _⟩⟩

/-- Settles O39: shift, symbol and feedback are the three parts of the step, written in numbers. -/
theorem polymodStepIsShiftThenFeedback : Obligations.PolymodStepIsShiftThenFeedback := by
  intro cfg c v shifted fed
  have hfed (k : Nat) (g : Chk) : fed k g = gated (c.getLsbD (25 + k)) g := by
    simp [fed, gated, ← BitVec.testBit_toNat, Nat.testBit_eq_decide_div_mod_eq]
  rw [polymodStep_eq, shiftLeft_xor_symbol_eq_ofNat]
  simp only [feedback, hfed, BitVec.xor_assoc]
  rfl

/-- Settles O40: each of the three parts of the step is linear. -/
theorem polymodStepIsLinear : Obligations.PolymodStepIsLinear :=
  polymodStep_xor

/-- Settles O42, by superposition on the remainder of the sequence. -/
theorem trailingSixSymbolsEnterUnchanged : Obligations.TrailingSixSymbolsEnterUnchanged := by
  intro cfg x w0 w1 w2 w3 w4 w5
  rw [polymod_append, polymod_append]
  exact polymodFrom_six cfg _ ..

/-- Settles O43: the remainder is the variant's constant, which identifies it. -/
theorem createdChecksumVerifiesAsItsVariant : Obligations.CreatedChecksumVerifiesAsItsVariant := by
  intro cfg hrp data v hv
  rw [verifyAndIdentifyVariant, polymod_with_checksum]
  exact identifyVariant_variantConst hv

/-- Settles O44: the difference is the shifted change, which keeps a set bit. -/
theorem oneLateSymbolErrorChangesTheRemainder :
    Obligations.OneLateSymbolErrorChangesTheRemainder := by
  intro cfg before after x d hlen hd good bad
  have hbad : bad = good ^^^ (d.setWidth 30 <<< (5 * after.length)) :=
    polymod_changed_symbol cfg before x d hlen
  refine ⟨hbad, fun heq => symbol_shiftLeft_ne_zero hlen hd ?_⟩
  exact (BitVec.xor_right_inj good).1 (by rw [BitVec.xor_zero, ← hbad, heq])

/-- Settles O50, by induction over the commands, with the invariant and the abort flag carried along;
a leading CK.INIT seeds and leaves both as they are. -/
theorem accumulatorIsThePolymodOfWhatWasAbsorbed :
    Obligations.AccumulatorIsThePolymodOfWhatWasAbsorbed := by
  refine ⟨fun s is hinv hlive his => ⟨serve_absorbs his hinv hlive, ?_⟩, hrpCommands_absorb⟩
  rw [serve_of_reply is (replyCkInit_of_live hlive)]
  exact serve_absorbs his (s := deliver s (setChk seed s.toBlock, _)) hinv hlive

/-- Settles O51: CK.GEN finishes the checksum of what the message before it absorbed. -/
theorem createMessageAnswersCreateChecksum : Obligations.CreateMessageAnswersCreateChecksum := by
  intro s hrp data var hlive
  obtain ⟨u, rs, hserve, hfatal, hchk, hrsps, hrs⟩ := serve_message hrp data [.ckGen var] hlive
  have hlast := hserve.trans (serve_of_last_reply (replyCkGen_of_live hfatal var))
  refine ⟨_, rs, _, hlast, congrArg (· ++ [_]) hrsps, hrs, rfl, ?_, hchk⟩
  rw [respond_snd, createChecksum_eq, ← hchk]
  exact validGroups_checksumResponse _

/-- Settles O52: CK.VFY identifies the variant of what the message before it absorbed. -/
theorem verifyMessageAnswersTheVariant : Obligations.VerifyMessageAnswersTheVariant := by
  intro s hrp data hlive
  obtain ⟨u, rs, hserve, hfatal, hchk, hrsps, hrs⟩ := serve_message hrp data [.ckVfy] hlive
  have hlast := hserve.trans (serve_of_last_reply (replyCkVfy_of_live hfatal))
  refine ⟨_, rs, _, hlast, congrArg (· ++ [_]) hrsps, hrs, rfl, ?_⟩
  rw [respond_snd, hchk, ← verifyAndIdentifyVariant]
  rcases verifyAndIdentifyVariant engineConfig hrp data with _ | _ | _ <;> rfl

/-- Settles O23: the block's reply to CK.INIT, delivered. -/
theorem ckInitSeedsTheAccumulator : Obligations.CkInitSeedsTheAccumulator :=
  ⟨rfl, fun _ hlive => exec_of_reply (replyCkInit_of_live hlive)⟩

/-- Settles O24: the block's reply to CK.SYM, delivered. -/
theorem ckSymAbsorbsOneSymbol : Obligations.CkSymAbsorbsOneSymbol :=
  fun _ sym hlive => ⟨encode_ckSym sym, exec_ckSym_of_live hlive sym⟩

/-- Settles O25: CK.HRPH is CK.SYM of the high part, which is the quotient by 32. -/
theorem ckHrphAbsorbsTheHighPart : Obligations.CkHrphAbsorbsTheHighPart := by
  intro s byte hlive
  rw [← highPart_eq_ofNat]
  exact ⟨encode_ckHrph byte, exec_ckHrph_eq_ckSym byte s, exec_ckSym_of_live hlive (highPart byte)⟩

/-- Settles O26: CK.HRPL is CK.SYM of the low part, which is the remainder by 32. -/
theorem ckHrplAbsorbsTheLowPart : Obligations.CkHrplAbsorbsTheLowPart := by
  intro s byte hlive
  rw [← lowPart_eq_ofNat]
  exact ⟨encode_ckHrpl byte, exec_ckHrpl_eq_ckSym byte s, exec_ckSym_of_live hlive (lowPart byte)⟩

/-- Settles O29: the block's reply to CK.RD, delivered. -/
theorem ckRdReadsTheAccumulator : Obligations.CkRdReadsTheAccumulator :=
  ⟨rfl, fun _ hlive => exec_of_reply (replyCkRd_of_live hlive)⟩

/-- Settles O41, by induction over the first part. -/
theorem polymodContinuesOverConcatenation : Obligations.PolymodContinuesOverConcatenation :=
  polymodFrom_append

end Sys2Proof.Machine

/-! ## The bit-width converter (41_bit_converter.md): `convert_bits` as the stream it takes in, the
commands of a conversion, and that what they answer is `convert_bits` -/

namespace Sys2Proof.Machine

/-! ### The loop's variables are determined by the stream taken in (R115) -/

section Recut

variable {t acc acc' bits bits' : Nat} {stream : List Bool} {out out' : List Byte}

/-- The bits taken in leave no choice but in the stale bits of the buffer. -/
theorem Recut.unique (h : Recut t stream acc bits out) (h' : Recut t stream acc' bits' out') :
    bits = bits' ∧ out = out' ∧ bitsOf bits acc = bitsOf bits acc' := by
  have hbits : bits = bits' := h.bits_eq.trans h'.bits_eq.symm
  have hlen : out.length = out'.length := h.out_length.trans h'.out_length.symm
  have hout : out = out' := by
    refine bitStream_inj h.groups_lt h'.groups_lt hlen ?_
    rw [← h.take_eq, ← h'.take_eq, hlen]
  refine ⟨hbits, hout, ?_⟩
  rw [← h.drop_eq, hlen, h'.drop_eq, hbits]

/-- R113, R114: the last group reads no stale bit. -/
theorem lastGroup_congr (hr : bits < t) (h : bitsOf bits acc = bitsOf bits acc') :
    lastGroup t acc bits = lastGroup t acc' bits := by
  obtain ⟨-, hdigits, hlt⟩ := lastGroup_spec (acc := acc) hr
  obtain ⟨-, hdigits', hlt'⟩ := lastGroup_spec (acc := acc') hr
  rw [h, ← hdigits'] at hdigits
  simpa [Nat.mod_eq_of_lt hlt, Nat.mod_eq_of_lt hlt'] using bitsOf_inj hdigits

theorem padGroups_congr (hr : bits < t) (h : bitsOf bits acc = bitsOf bits acc') :
    padGroups t acc bits = padGroups t acc' bits := by
  rw [padGroups, padGroups, lastGroup_congr hr h]

theorem paddingFails_congr (hr : bits < t) (h : bitsOf bits acc = bitsOf bits acc') (f : Nat) :
    paddingFails f t acc bits = paddingFails f t acc' bits := by
  rw [paddingFails, paddingFails, lastGroup_congr hr h]

section Turn

variable {f : Nat} {v : Byte}

theorem convertLoop_cons_of_fits (hv : v.toNat < 2 ^ f) (masked pad : Bool) (data : List Byte) :
    convertLoop masked f t pad (v :: data) acc bits out =
      (let acc' := (acc <<< f) ||| v.toNat
       let e := emitGroups acc' t (bits + f) (bits + f)
       convertLoop masked f t pad data (if masked then acc' &&& (2 ^ e.2 - 1) else acc') e.2
        (out ++ e.1)) :=
  if_pos ((fitsWidth_iff f v).2 hv)

theorem convertLoop_cons_of_too_wide (hv : 2 ^ f ≤ v.toNat) (masked pad : Bool)
    (data : List Byte) :
    convertLoop masked f t pad (v :: data) acc bits out = .invalidInputValue v :=
  if_neg (by rw [fitsWidth_iff]; omega)

end Turn

/-- From any two buffers for the same stream the loop has the same result, masked or not. -/
theorem convertLoop_eq_of_recut (h8 : t ≤ 8) (f : Nat) (masked masked' pad : Bool)
    (data : List Byte) (h : Recut t stream acc bits out) (h' : Recut t stream acc' bits' out') :
    convertLoop masked f t pad data acc bits out =
      convertLoop masked' f t pad data acc' bits' out' := by
  induction data generalizing stream acc bits out acc' bits' out' with
  | nil =>
    obtain ⟨rfl, rfl, hlive⟩ := h.unique h'
    rw [convertLoop, convertLoop, padGroups_congr h.short hlive,
      paddingFails_congr h.short hlive]
  | cons v data ih =>
    rcases Nat.lt_or_ge v.toNat (2 ^ f) with hv | hv
    · rw [convertLoop_cons_of_fits hv, convertLoop_cons_of_fits hv]
      exact ih (h.turn h8 hv masked) (h'.turn h8 hv masked')
    · rw [convertLoop_cons_of_too_wide hv, convertLoop_cons_of_too_wide hv]

end Recut

theorem recut_start (t : Width) : Recut t.val [] 0 0 [] :=
  ⟨t.pos, by simp, rfl⟩

/-- Values that fit are their own stream cut at their own width. -/
theorem recut_self {x : List Byte} (f : Width) (hx : ∀ v ∈ x, v.toNat < 2 ^ f.val) :
    Recut f.val (bitStream f.val x) 0 0 x :=
  ⟨f.pos, hx, by simp [bitsOf]⟩

/-- Any way of cutting the input's stream tells what `convert_bits` comes to at the end. -/
theorem convertBits_of_recut {data : List Byte} {f t : Width} {acc bits : Nat} {out : List Byte}
    (hdata : ∀ v ∈ data, v.toNat < 2 ^ f.val)
    (h : Recut t.val (bitStream f.val data) acc bits out) (pad : Bool) :
    convertBits data f t pad = convertLoop true f.val t.val pad [] acc bits out := by
  obtain ⟨acc', bits', out', hcut, heq⟩ := convertBits_recut f t hdata pad
  rw [heq, convertLoop_eq_of_recut t.le_eight f.val true true pad [] hcut h]

/-- R114: fewer leftover zeros than an input symbol has bits pass the test. -/
theorem convertLoop_nil_of_zeros {f z : Nat} (hz : z < f) (masked : Bool) (t : Nat)
    (out : List Byte) : convertLoop masked f t false [] 0 z out = .ok out := by
  simp [convertLoop, paddingFails, lastGroup, hz]

/-! ### The first too wide value (R112) -/

theorem fitsWidth_eq_false_iff (f : Nat) (v : Byte) :
    fitsWidth f v = false ↔ 2 ^ f ≤ v.toNat := by
  rw [← Bool.not_eq_true, fitsWidth_iff, Nat.not_lt]

/-- The loop reports the first value that does not fit, whatever it has buffered so far. -/
theorem convertLoop_eq_invalidInputValue_iff (masked : Bool) (f t : Nat) (pad : Bool) (v : Byte)
    (data : List Byte) (acc bits : Nat) (out : List Byte) :
    convertLoop masked f t pad data acc bits out = .invalidInputValue v ↔
      data.find? (fun u => !fitsWidth f u) = some v := by
  induction data generalizing acc bits out with
  | nil =>
    cases pad with
    | true => simp [convertLoop]
    | false => cases hfails : paddingFails f t acc bits <;> simp [convertLoop, hfails]
  | cons u data ih =>
    rcases Nat.lt_or_ge u.toNat (2 ^ f) with hu | hu
    · rw [convertLoop_cons_of_fits hu, List.find?_cons_of_neg (by simp [(fitsWidth_iff f u).2 hu])]
      exact ih ..
    · rw [convertLoop_cons_of_too_wide hu,
        List.find?_cons_of_pos (by simp [(fitsWidth_eq_false_iff f u).2 hu])]
      simp

/-! ### The function's obligations -/

/-- Settles O45: both buffers hold the bits taken in so far, and the result depends on no others. -/
theorem maskedBufferChangesNoResult : Obligations.MaskedBufferChangesNoResult :=
  fun data f t pad =>
    convertLoop_eq_of_recut t.le_eight f.val true false pad data (recut_start t) (recut_start t)

/-- Settles O46: the loop reports the first value that does not fit. -/
theorem firstTooWideValueIsReported : Obligations.FirstTooWideValueIsReported := by
  intro data f t pad v
  rw [convertBits, convertLoop_eq_invalidInputValue_iff, List.find?_eq_some_iff_append]
  simp only [Bool.not_eq_true', Bool.not_not, fitsWidth_eq_false_iff, fitsWidth_iff]
  constructor
  · rintro ⟨hv, before, after, hdata, hbefore⟩
    exact ⟨before, after, hdata, hbefore, hv⟩
  · rintro ⟨before, after, hdata, hbefore, hv⟩
    exact ⟨hv, before, after, hdata, hbefore⟩

/-- Settles O48: the padding is fewer than `t` zeros, so on the way back the output's stream is cut
into the input and leftover zeros that pass the test. -/
theorem padThenUnpadReturnsTheInput : Obligations.PadThenUnpadReturnsTheInput := by
  intro x f t hle hx
  obtain ⟨⟨y, hy, hlen, hyfits, hstream⟩, -, -⟩ := convertBitsRecutsTheBitStream x f t hx
  have hpos := t.pos
  have hround := Nat.div_mul_le_self (x.length * f.val + t.val - 1) t.val
  rw [← hlen] at hround
  have hz : y.length * t.val - x.length * f.val < t.val := by omega
  have hcut : Recut f.val (bitStream t.val y) 0 (y.length * t.val - x.length * f.val) x :=
    ⟨by omega, hx, by rw [bitsOf_zero, hstream]⟩
  exact ⟨y, hy, (convertBits_of_recut hyfits hcut false).trans (convertLoop_nil_of_zeros hz ..)⟩

/-- Settles O49: a sequence that fits is its own stream cut at its own width, with nothing left over
to pad or to test. -/
theorem equalWidthsCopyTheInput : Obligations.EqualWidthsCopyTheInput := by
  intro x f pad hx
  rw [convertBits_of_recut hx (recut_self f hx)]
  cases pad with
  | true => simp [convertLoop, padGroups]
  | false => exact convertLoop_nil_of_zeros f.pos ..

/-! ### The word of CV.CFG (R61) -/

/-- The word with its fields in their places, for each of the 512 operands. -/
theorem encode_cvCfg (pad : Bool) (fromBits toBits : WidthField) :
    encode (.cvCfg pad fromBits toBits) =
      0x8000#16 ||| ((BitVec.ofBool pad).setWidth 16 <<< 8) |||
        (fromBits.setWidth 16 <<< 4) ||| toBits.setWidth 16 := by
  revert pad fromBits toBits
  decide

/-! ### The commands of a live block, CV.PUSH and CV.END in phase RUN -/

theorem replyCvCfg_of_legal {b : Block} (hlive : b.fatal = false) (pad : Bool) {f d : WidthField}
    (hf : legalWidth f = true) (hd : legalWidth d = true) :
    reply (.cvCfg pad f d) b = .next (respond {} (openConversion pad f d b)) := by
  rw [replyCvCfg_of_live hlive, hf, hd]
  rfl

theorem replyCvCfg_of_illegal {b : Block} (hlive : b.fatal = false) (pad : Bool)
    {f d : WidthField} (h : ¬ (legalWidth f = true ∧ legalWidth d = true)) :
    reply (.cvCfg pad f d) b = .next (raise .badWidth b) := by
  rw [replyCvCfg_of_live hlive, if_neg (by simpa using h)]

theorem replyCvPush_of_run {b : Block} (hlive : b.fatal = false) (hrun : b.cvPhase = .run)
    (hinv : b.Inv) (byte : Byte) : reply (.cvPush byte) b = .next (pushValue byte b) :=
  (replyCvPush_of_live hlive byte).trans
    (whileRunning_run hrun (hinv.converterFault_none (by simp [hrun])) _)

theorem replyCvEnd_of_run {b : Block} (hlive : b.fatal = false) (hrun : b.cvPhase = .run)
    (hinv : b.Inv) : reply .cvEnd b = .next (endConversion b) :=
  (replyCvEnd_of_live hlive).trans
    (whileRunning_run hrun (hinv.converterFault_none (by simp [hrun])) _)

/-- R113: the leftover bits with zeros below them, as a number. -/
theorem lastGroup_eq_mul {t acc bits : Nat} (hbits : bits ≤ t) (hacc : acc < 2 ^ bits) :
    lastGroup t acc bits = acc * 2 ^ (t - bits) ∧ acc * 2 ^ (t - bits) < 2 ^ t := by
  have hlt : acc * 2 ^ (t - bits) < 2 ^ t := by
    calc acc * 2 ^ (t - bits) < 2 ^ bits * 2 ^ (t - bits) :=
          Nat.mul_lt_mul_of_pos_right hacc (Nat.two_pow_pos _)
      _ = 2 ^ t := by rw [← Nat.pow_add, Nat.add_sub_cancel' hbits]
  refine ⟨?_, hlt⟩
  rw [lastGroup, Nat.and_two_pow_sub_one_eq_mod, Nat.shiftLeft_eq, Nat.mod_eq_of_lt hlt]

theorem endConversion_of_pad {b : Block} (h : b.cvPad = true) :
    endConversion b = respond
      (groupsResponse (padGroups b.cvTo.toNat b.cvAcc.toNat b.cvBits.toNat)) (setPhase .done b) :=
  if_pos h

theorem endConversion_of_zeros {b : Block} (hpad : b.cvPad = false)
    (hbits : b.cvBits.toNat < b.cvFrom.toNat) (hacc : b.cvAcc = 0#7) :
    endConversion b = respond {} (setPhase .done b) := by
  simp [endConversion, hpad, paddingFails, lastGroup, hbits, hacc]

/-- R24: a value that fits, appended to a buffer, makes a number of as many bits as both have. -/
theorem appended_lt {acc bits v f : Nat} (hacc : acc < 2 ^ bits) (hv : v < 2 ^ f) :
    acc * 2 ^ f + v < 2 ^ (bits + f) := by
  calc acc * 2 ^ f + v < (acc + 1) * 2 ^ f := by rw [Nat.add_mul]; omega
    _ ≤ 2 ^ bits * 2 ^ f := Nat.mul_le_mul_right _ hacc
    _ = 2 ^ (bits + f) := (Nat.pow_add ..).symm

/-- R117 in numbers: what one push makes of a buffer, by division. -/
theorem regroup_eq {f t acc bits v : Nat} (hv : v < 2 ^ f) :
    let a := acc * 2 ^ f + v
    let b := bits + f
    regroup f t acc bits v =
      { groups := (List.range (b / t)).map fun k =>
          BitVec.ofNat 8 (a / 2 ^ (b - (k + 1) * t) % 2 ^ t)
        acc := a % 2 ^ (b % t)
        bits := b % t } := by
  simp only [regroup, shiftLeft_or_eq hv, Nat.and_two_pow_sub_one_eq_mod,
    Nat.shiftRight_eq_div_pow, Nat.mod_eq_sub_div_mul]

/-- R67: numbered groups stand in the slots of their numbers. -/
theorem groupSlots_map_range (n : Nat) (g : Nat → Byte) :
    groupSlots ((List.range n).map g) =
      Vector.ofFn fun k => if k.val < n then g k.val else 0#8 := by
  refine congrArg Vector.ofFn (funext fun k => ?_)
  split <;> simp_all

/-! ### The commands' obligations -/

/-- Settles O30: the reply to CV.CFG, by whether both widths are legal. -/
theorem cvCfgOpensAConversionOrAborts : Obligations.CvCfgOpensAConversionOrAborts := by
  intro s pad fromBits toBits hlive
  refine ⟨encode_cvCfg pad fromBits toBits, fun hf1 hf8 ht1 ht8 => ?_, fun hbad => ?_⟩
  · exact exec_of_reply (replyCvCfg_of_legal hlive pad ((legalWidth_iff _).2 ⟨hf1, hf8⟩)
      ((legalWidth_iff _).2 ⟨ht1, ht8⟩))
  · refine exec_of_reply (replyCvCfg_of_illegal hlive pad ?_)
    rwa [legalWidth_iff, legalWidth_iff, and_assoc]

/-- Settles O31: the regrouped buffer in numbers; the widths of at most 8 and the invariant's bound on
the buffer keep every number within its register or slot. -/
theorem cvPushEmitsTheCompleteGroups : Obligations.CvPushEmitsTheCompleteGroups := by
  intro s byte hlive hrun hinv hfits a b n r
  obtain ⟨⟨-, hf8⟩, ⟨ht1, ht8⟩, hbits, hacc⟩ :=
    converterFault_eq_none.1 (hinv.converterFault_none (by simp [hrun]))
  have ha : a < 2 ^ b := appended_lt hacc hfits
  have hb : 2 ^ b ≤ 2 ^ 15 := Nat.pow_le_pow_right (by omega) (by omega)
  have hn : n ≤ 8 := by
    simpa [regroup_groups_length] using
      regroup_groups_le_eight (acc := s.cvAcc.toNat) (v := byte.toNat) hf8 ht1 hbits
  have hr : r < s.cvTo.toNat := Nat.mod_lt _ ht1
  have hkept : 2 ^ r ≤ 2 ^ 7 := Nat.pow_le_pow_right (by omega) (by omega)
  refine ⟨ha.trans_le hb, ha, hn, by omega, (Nat.mod_lt a (Nat.two_pow_pos r)).trans_le hkept, ?_⟩
  rw [exec_cvPush_of_fits hlive hrun hinv hfits, regroup_eq hfits]
  simp only [groupsResponse, groupSlots_map_range, List.length_map, List.length_range]
  rfl

/-- Settles O32: the padding groups are none or the one last group. -/
theorem cvEndPadsTheLastGroup : Obligations.CvEndPadsTheLastGroup := by
  intro s hlive hrun hinv hpad
  have hexec := exec_of_reply (replyCvEnd_of_run hlive hrun hinv)
  rw [endConversion_of_pad hpad] at hexec
  refine ⟨fun hzero => ?_, fun hne => ?_⟩
  · rw [hzero] at hexec
    exact hexec
  · obtain ⟨-, -, hbits, hacc⟩ :=
      converterFault_eq_none.1 (hinv.converterFault_none (by simp [hrun]))
    obtain ⟨heq, hlt⟩ := lastGroup_eq_mul hbits.le hacc
    have hpos : 0 < s.cvBits.toNat := Nat.pos_of_ne_zero fun h => hne (BitVec.eq_of_toNat_eq h)
    rw [padGroups, if_pos hpos, heq] at hexec
    exact ⟨hlt, hexec⟩

/-- Settles O33: zero bits, fewer than an input symbol has, pass the test of the padding. -/
theorem cvEndAcceptsZeroPadding : Obligations.CvEndAcceptsZeroPadding := by
  intro s hlive hrun hinv hpad hshort hzero
  have hexec := exec_of_reply (replyCvEnd_of_run hlive hrun hinv)
  rwa [endConversion_of_zeros hpad hshort hzero] at hexec

/-! ### Commands among other commands (R119) -/

/-- What a run that begins with a given word can be. -/
theorem blockRun_cons {w : CmdWord} {ws : List CmdWord} {b d : Block} {qs : List Response} :
    blockRun (w :: ws) b = .next (d, qs) ↔
      ∃ a rs, blockStep b w = .next a ∧ blockRun ws a.1 = .next (d, rs) ∧ qs = a.2 :: rs := by
  rw [blockRun]
  cases blockStep b w with
  | fault f => simp
  | refused q => simp
  | next a =>
    obtain ⟨c, r⟩ := a
    cases hrest : blockRun ws c with
    | fault f => simp [hrest]
    | refused q => simp [hrest]
    | next final => simp [hrest, Prod.ext_iff, eq_comm]

theorem blockStep_encode (i : Instr) (b : Block) : blockStep b (encode i) = reply i b := by
  rw [blockStep, decode_encode]

theorem blockRun_of_reply {i : Instr} {ws : List CmdWord} {b d : Block} {a : Block × Response}
    {rs : List Response} (h : reply i b = .next a) (hrest : blockRun ws a.1 = .next (d, rs)) :
    blockRun (encode i :: ws) b = .next (d, a.2 :: rs) :=
  blockRun_cons.2 ⟨a, rs, (blockStep_encode i b).trans h, hrest, rfl⟩

/-- R191: a run gives one response a word. -/
theorem blockRun_length {ws : List CmdWord} {b d : Block} {qs : List Response}
    (h : blockRun ws b = .next (d, qs)) : qs.length = ws.length := by
  induction ws generalizing b qs with
  | nil =>
    cases h
    rfl
  | cons w ws ih =>
    obtain ⟨a, rs, -, hrest, rfl⟩ := blockRun_cons.1 h
    simp [ih hrest]

theorem bwcResponses_cons_of_isBwc {i : Instr} (hi : isBwc i = true) (is : List Instr)
    (r : Response) (rs : List Response) :
    bwcResponses (i :: is) (r :: rs) = r :: bwcResponses is rs := by
  simp [bwcResponses, hi]

theorem bwcResponses_cons_of_not_isBwc {i : Instr} (hi : isBwc i = false) (is : List Instr)
    (r : Response) (rs : List Response) :
    bwcResponses (i :: is) (r :: rs) = bwcResponses is rs := by
  simp [bwcResponses, hi]

/-- Commands of the checksum engine and NOPs among the converter's leave its answers and its registers
what the converter's commands alone make them, whatever the accumulator holds. -/
theorem serve_of_blockRun_filter {is : List Instr} {b d : Block} {qs : List Response}
    (h : blockRun ((is.filter isBwc).map encode) b = .next (d, qs)) {s : State} {c : Chk}
    (hs : s.toBlock = setChk c b) :
    ∃ u rs, serve (commands is) s = .next u ∧ u.rsps = s.rsps ++ rs ∧ rs.length = is.length ∧
      bwcResponses is rs = qs ∧ ∃ c', u.toBlock = setChk c' d := by
  induction is generalizing b qs s c with
  | nil =>
    cases h
    exact ⟨_, [], serve_nil s, by simp, rfl, rfl, c, hs⟩
  | cons i is ih =>
    cases hi : isBwc i with
    | false =>
      rw [List.filter_cons_of_neg (by simp [hi])] at h
      obtain ⟨c', r, hreply⟩ := reply_of_not_isBwc hi s.toBlock
      obtain ⟨u, rs, hserve, hrsps, hlen, hanswers, hblock⟩ :=
        ih h (s := deliver s ({ s.toBlock with chk := c' }, r)) (c := c') (by simp [hs, setChk])
      refine ⟨u, r :: rs, (serve_of_reply is hreply).trans hserve, by simp [hrsps], by simp [hlen],
        ?_, hblock⟩
      rw [bwcResponses_cons_of_not_isBwc hi, hanswers]
    | true =>
      rw [List.filter_cons_of_pos hi, List.map_cons, blockRun_cons, blockStep_encode] at h
      obtain ⟨⟨b', r⟩, rest, hreply, hrest, rfl⟩ := h
      have hreply' := reply_setChk hi hreply c
      rw [← hs] at hreply'
      obtain ⟨u, rs, hserve, hrsps, hlen, hanswers, hblock⟩ :=
        ih hrest (s := deliver s (setChk c b', r)) rfl
      refine ⟨u, r :: rs, (serve_of_reply is hreply').trans hserve, by simp [hrsps], by simp [hlen],
        ?_, hblock⟩
      rw [bwcResponses_cons_of_isBwc hi, hanswers]

/-! ### What the answers to the pushes and the end of a conversion say (R119) -/

/-- `Answered f data out result answers phase`: after the groups `out`, the pushes of `data` at input
width `f` and the end of the conversion are answered by `answers`, which leave `phase` and tell
`result`. One constructor per outcome of R119. -/
inductive Answered (f : Nat) (data out : List Byte) :
    ConvertResult → List Response → Phase → Prop where
  | succeeded {answers : List Response} (hok : ∀ r ∈ answers, r.status = .ok) :
      Answered f data out (.ok (out ++ answers.flatMap validGroups)) answers .done
  | tooWide {before after : List Byte} {v : Byte} (hdata : data = before ++ v :: after)
      (hbefore : ∀ x ∈ before, x.toNat < 2 ^ f) (hv : 2 ^ f ≤ v.toNat) {oks : List Response}
      (hlen : oks.length = before.length) (hok : ∀ r ∈ oks, r.status = .ok) {first : Response}
      {errs : List Response}
      (herr : ∀ r ∈ first :: errs, r.status = .invalidInputValue ∧ r.errval = v) :
      Answered f data out (.invalidInputValue v) (oks ++ first :: errs) .errv
  | badPadding {oks : List Response} (hlen : oks.length = data.length)
      (hok : ∀ r ∈ oks, r.status = .ok) {last : Response} (herr : last.status = .invalidPadding) :
      Answered f data out .invalidPadding (oks ++ [last]) .errp

/-- An answer OK before the others, for a value that fits, adds its groups. -/
theorem Answered.cons {f : Nat} {data out : List Byte} {result : ConvertResult}
    {answers : List Response} {phase : Phase} {v : Byte} {r : Response} (hv : v.toNat < 2 ^ f)
    (hr : r.status = .ok) (h : Answered f data (out ++ validGroups r) result answers phase) :
    Answered f (v :: data) out result (r :: answers) phase := by
  cases h with
  | succeeded hok =>
    have hall := Answered.succeeded (f := f) (data := v :: data) (out := out)
      (List.forall_mem_cons.2 ⟨hr, hok⟩)
    simpa using hall
  | @tooWide before after w hdata hbefore hw oks hlen hok first errs herr =>
    exact .tooWide (before := v :: before) (after := after) (oks := r :: oks) (by simp [hdata])
      (List.forall_mem_cons.2 ⟨hv, hbefore⟩) hw (by simp [hlen])
      (List.forall_mem_cons.2 ⟨hr, hok⟩) herr
  | @badPadding oks hlen hok last herr =>
    exact .badPadding (oks := r :: oks) (by simp [hlen]) (List.forall_mem_cons.2 ⟨hr, hok⟩) herr

/-- R161: the first failed answer decides, whatever stands after it. -/
theorem conversionResult_of_first_error {oks errs : List Response} {r : Response}
    (hok : ∀ q ∈ oks, q.status = .ok) (hr : r.status ≠ .ok) :
    conversionResult (oks ++ r :: errs) = conversionResult [r] := by
  have hnone : oks.find? (fun q => q.status != .ok) = none := by simpa using hok
  simp [conversionResult, List.find?_append, hnone, hr]

theorem conversionResult_of_all_ok {answers : List Response}
    (hok : ∀ q ∈ answers, q.status = .ok) :
    conversionResult answers = some (.ok (answers.flatMap validGroups)) := by
  have hnone : answers.find? (fun q => q.status != .ok) = none := by simpa using hok
  simp [conversionResult, hnone]

/-- R161: after CV.CFG's answer, which is OK and has no groups, the host makes of the answers the
result they tell. -/
theorem Answered.conversionResult_eq {f : Nat} {data : List Byte} {result : ConvertResult}
    {answers : List Response} {phase : Phase} (h : Answered f data [] result answers phase) :
    conversionResult ({} :: answers) = some result := by
  have hcfg {rs : List Response} (hok : ∀ r ∈ rs, r.status = .ok) :
      ∀ r ∈ {} :: rs, r.status = .ok := List.forall_mem_cons.2 ⟨rfl, hok⟩
  cases h with
  | succeeded hok => simp [conversionResult_of_all_ok (hcfg hok), validGroups]
  | @tooWide _ _ _ _ _ _ oks _ hok first errs herr =>
    obtain ⟨⟨hstatus, herrval⟩, -⟩ := List.forall_mem_cons.1 herr
    refine (conversionResult_of_first_error (hcfg hok) (by simp [hstatus])).trans ?_
    simp [conversionResult, hstatus, herrval]
  | @badPadding oks _ hok last herr =>
    refine (conversionResult_of_first_error (hcfg hok) (by simp [herr])).trans ?_
    simp [conversionResult, herr]

/-! ### The block's run through a conversion -/

/-- R110's loop going on from the configuration and the buffer that the registers hold. -/
def loopFrom (b : Block) (data out : List Byte) : ConvertResult :=
  convertLoop true b.cvFrom.toNat b.cvTo.toNat b.cvPad data b.cvAcc.toNat b.cvBits.toNat out

theorem width_field_toNat (w : Width) : (BitVec.ofNat 4 w.val).toNat = w.val :=
  Nat.mod_eq_of_lt (by have := w.le_eight; omega)

theorem width_field_legal (w : Width) : legalWidth (BitVec.ofNat 4 w.val) = true :=
  (legalWidth_iff _).2 (by rw [width_field_toNat]; exact ⟨w.pos, w.le_eight⟩)

/-- From an accepted CV.CFG the loop is `convert_bits`. -/
theorem loopFrom_openConversion (data : List Byte) (f t : Width) (pad : Bool) (b : Block) :
    loopFrom (openConversion pad (BitVec.ofNat 4 f.val) (BitVec.ofNat 4 t.val) b) data [] =
      convertBits data f t pad := by
  rw [loopFrom, openConversion_cvFrom, openConversion_cvTo, width_field_toNat, width_field_toNat]
  rfl

/-- The commands of a conversion after its CV.CFG. -/
def pushesAndEnd (data : List Byte) : List Instr :=
  data.map .cvPush ++ [.cvEnd]

theorem convertMessage_eq (data : List Byte) (f t : Width) (pad : Bool) :
    convertMessage data f t pad =
      .cvCfg pad (BitVec.ofNat 4 f.val) (BitVec.ofNat 4 t.val) :: pushesAndEnd data := rfl

/-- R151, R160: in phase ERRV every push and the end are answered alike and nothing is written. -/
theorem blockRun_of_errv {b : Block} (hlive : b.fatal = false) (herrv : b.cvPhase = .errv)
    (data : List Byte) :
    blockRun ((pushesAndEnd data).map encode) b =
      .next (b, List.replicate (data.length + 1)
        { status := .invalidInputValue, errval := b.cvErrval }) := by
  have hstick (c : Reply) : whileRunning b c =
      .next (b, { status := .invalidInputValue, errval := b.cvErrval }) := by
    simp [whileRunning, herrv, respond]
  induction data with
  | nil => exact blockRun_of_reply ((replyCvEnd_of_live hlive).trans (hstick _)) rfl
  | cons v data ih => exact blockRun_of_reply ((replyCvPush_of_live hlive v).trans (hstick _)) ih

/-- R118: the end of a conversion is answered as the end of R110's loop says. -/
theorem answered_endConversion (b : Block) (out : List Byte) :
    Answered b.cvFrom.toNat [] out (loopFrom b [] out) [(endConversion b).2]
      (endConversion b).1.cvPhase := by
  obtain ⟨hpad, heq⟩ | ⟨hpad, hfails, heq⟩ | ⟨hpad, hpass, heq⟩ := endConversion_cases b
  · have hgroups := validGroups_groupsResponse
      ((padGroups_length_le_one b.cvTo.toNat b.cvAcc.toNat b.cvBits.toNat).trans (by decide))
    have hanswered := Answered.succeeded (f := b.cvFrom.toNat) (data := []) (out := out)
      (answers := [(endConversion b).2]) (by simp [heq, groupsResponse])
    simpa [loopFrom, convertLoop, hpad, heq, hgroups] using hanswered
  · have hanswered := Answered.badPadding (f := b.cvFrom.toNat) (data := []) (out := out)
      (oks := []) rfl (by simp) (last := (endConversion b).2) (by simp [heq, raise])
    simpa [loopFrom, convertLoop, hpad, hfails, heq, raise] using hanswered
  · have hanswered := Answered.succeeded (f := b.cvFrom.toNat) (data := []) (out := out)
      (answers := [(endConversion b).2]) (by simp [heq])
    simpa [loopFrom, convertLoop, hpad, hpass, heq, validGroups] using hanswered

theorem pushValue_of_too_wide {v : Byte} {b : Block} (hv : 2 ^ b.cvFrom.toNat ≤ v.toNat) :
    pushValue v b = raise (.invalidInputValue v) b :=
  if_neg (by rw [fitsWidth_iff]; omega)

theorem pushValue_of_fits {v : Byte} {b : Block} (hv : v.toNat < 2 ^ b.cvFrom.toNat) :
    pushValue v b =
      (let g := regroup b.cvFrom.toNat b.cvTo.toNat b.cvAcc.toNat b.cvBits.toNat v.toNat
       respond (groupsResponse g.groups) (setBuffer g.acc g.bits b)) :=
  if_pos ((fitsWidth_iff _ v).2 hv)

/-- The registers hold exactly the buffer that a push leaves. -/
theorem setBuffer_regroup_toNat {t : Nat} (h1 : 1 ≤ t) (h8 : t ≤ 8) (f acc bits v : Nat)
    (b : Block) :
    let g := regroup f t acc bits v
    (setBuffer g.acc g.bits b).cvAcc.toNat = g.acc ∧
      (setBuffer g.acc g.bits b).cvBits.toNat = g.bits := by
  refine setBuffer_toNat ?_ (regroup_acc_lt ..) b
  rw [regroup_bits]
  exact (Nat.mod_lt _ h1).trans_le h8

/-- R117: regrouping does to the loop's variables what one turn of R110's loop does. -/
theorem convertLoop_cons_eq_regroup {f t acc bits : Nat} {v : Byte} (h1 : 1 ≤ t) (h8 : t ≤ 8)
    (hv : v.toNat < 2 ^ f) (pad : Bool) (data out : List Byte) :
    convertLoop true f t pad (v :: data) acc bits out =
      (let g := regroup f t acc bits v.toNat
       convertLoop true f t pad data g.acc g.bits (out ++ g.groups)) := by
  obtain ⟨hgroups, hbits⟩ := regroup_eq_emitGroups (acc := acc) (bits := bits) h1 h8 hv
  have hacc : (regroup f t acc bits v.toNat).acc =
      ((acc <<< f) ||| v.toNat) &&& (2 ^ (regroup f t acc bits v.toNat).bits - 1) := rfl
  simp only [convertLoop_cons_of_fits hv, if_true, hacc, hgroups, hbits]

/-- R117: one push is one turn of R110's loop. -/
theorem loopFrom_cons_of_fits {v : Byte} {b : Block} (hrun : b.cvPhase = .run) (hinv : b.Inv)
    (hv : v.toNat < 2 ^ b.cvFrom.toNat) (data out : List Byte) :
    loopFrom b (v :: data) out =
      loopFrom (pushValue v b).1 data (out ++ validGroups (pushValue v b).2) := by
  obtain ⟨⟨-, hf8⟩, ⟨ht1, ht8⟩, hbits, -⟩ :=
    converterFault_eq_none.1 (hinv.converterFault_none (by simp [hrun]))
  obtain ⟨hacc', hbits'⟩ :=
    setBuffer_regroup_toNat ht1 ht8 b.cvFrom.toNat b.cvAcc.toNat b.cvBits.toNat v.toNat b
  rw [pushValue_of_fits hv, respond_fst, respond_snd,
    validGroups_groupsResponse (regroup_groups_le_eight hf8 ht1 hbits), loopFrom, loopFrom,
    hacc', hbits', convertLoop_cons_eq_regroup ht1 ht8 hv]
  rfl

/-- R117, R118: in phase RUN the pushes and the end are answered as R110's loop goes on from the
registers. -/
theorem blockRun_of_run {b : Block} (hlive : b.fatal = false) (hrun : b.cvPhase = .run)
    (hinv : b.Inv) (data out : List Byte) :
    ∃ d answers, blockRun ((pushesAndEnd data).map encode) b = .next (d, answers) ∧
      Answered b.cvFrom.toNat data out (loopFrom b data out) answers d.cvPhase := by
  induction data generalizing b out with
  | nil =>
    exact ⟨_, _, blockRun_of_reply (replyCvEnd_of_run hlive hrun hinv) rfl,
      answered_endConversion b out⟩
  | cons v data ih =>
    have hpush := replyCvPush_of_run hlive hrun hinv v
    rcases Nat.lt_or_ge v.toNat (2 ^ b.cvFrom.toNat) with hv | hv
    · have hok := hinv.converterFault_none (by simp [hrun])
      have heq := pushValue_of_fits hv
      obtain ⟨d, answers, hrest, hanswered⟩ := ih (b := (pushValue v b).1)
        (by rw [heq]; exact hlive) (by rw [heq]; exact hrun)
        ((writes_pushValue v hrun hok).inv hinv) (out ++ validGroups (pushValue v b).2)
      rw [← loopFrom_cons_of_fits hrun hinv hv,
        show (pushValue v b).1.cvFrom = b.cvFrom by rw [heq]; rfl] at hanswered
      exact ⟨d, _, blockRun_of_reply hpush hrest, .cons hv (by rw [heq]; rfl) hanswered⟩
    · rw [pushValue_of_too_wide hv] at hpush
      rw [loopFrom, convertLoop_cons_of_too_wide hv]
      refine ⟨_, _, blockRun_of_reply hpush
        (blockRun_of_errv (b := (raise (.invalidInputValue v) b).1) hlive rfl data), ?_⟩
      exact .tooWide (before := []) (oks := []) rfl (by simp) hv rfl (by simp) (by simp [raise])

/-- R119: the commands of a conversion alone, from any live block. -/
theorem blockRun_convertMessage {b : Block} (hlive : b.fatal = false) (data : List Byte)
    (f t : Width) (pad : Bool) :
    ∃ d answers, blockRun ((convertMessage data f t pad).map encode) b = .next (d, {} :: answers) ∧
      Answered f.val data [] (convertBits data f t pad) answers d.cvPhase := by
  obtain ⟨d, answers, hrest, hanswered⟩ := blockRun_of_run
    (b := openConversion pad (BitVec.ofNat 4 f.val) (BitVec.ofNat 4 t.val) b) hlive rfl
    (openConversion_inv (width_field_legal f) (width_field_legal t) pad b) data []
  rw [loopFrom_openConversion, openConversion_cvFrom, width_field_toNat] at hanswered
  rw [convertMessage_eq, List.map_cons]
  exact ⟨d, answers, blockRun_of_reply
    (replyCvCfg_of_legal hlive pad (width_field_legal f) (width_field_legal t)) hrest, hanswered⟩

/-- Settles O53: the converter's commands alone are answered as `convert_bits` says, whichever outcome
it has, and the commands among them change neither those answers nor the phase. -/
theorem convertMessageAnswersConvertBits : Obligations.ConvertMessageAnswersConvertBits := by
  intro s is data f t pad hlive hfilter
  obtain ⟨d, answers, hrun, hanswered⟩ := blockRun_convertMessage hlive data f t pad
  have hwords : ({} :: answers).length = data.length + 2 := by
    simpa [convertMessage] using blockRun_length hrun
  rw [← hfilter] at hrun
  obtain ⟨u, rs, hserve, hrsps, hcount, hbwc, c, hblock⟩ :=
    serve_of_blockRun_filter hrun (s := s) (c := s.chk) rfl
  have hphase : u.cvPhase = d.cvPhase := by rw [hblock, setChk_cvPhase]
  refine ⟨u, rs, hserve, hrsps, hcount, ?_⟩
  rw [hbwc, hphase]
  refine ⟨hwords, hanswered.conversionResult_eq, ?_⟩
  clear hwords
  generalize convertBits data f t pad = result, d.cvPhase = phase at hanswered
  cases hanswered with
  | succeeded hok =>
    refine ⟨?_, nofun, nofun⟩
    rintro out ⟨⟩
    exact ⟨List.forall_mem_cons.2 ⟨rfl, hok⟩, by simp [validGroups], rfl⟩
  | @tooWide before after v hdata hbefore hv oks hlen hok first errs herr =>
    refine ⟨nofun, ?_, nofun⟩
    rintro w ⟨⟩
    subst hdata
    refine ⟨before.length, by simp, hv, by simpa using hbefore, ?_, ?_, rfl⟩
    · rw [List.take_succ_cons, List.take_left' hlen]
      exact List.forall_mem_cons.2 ⟨rfl, hok⟩
    · rwa [List.drop_succ_cons, List.drop_left' hlen]
  | @badPadding oks hlen hok last herr =>
    refine ⟨nofun, nofun, fun _ => ⟨?_, ?_, rfl⟩⟩
    · rw [List.take_succ_cons, List.take_left' hlen]
      exact List.forall_mem_cons.2 ⟨rfl, hok⟩
    · rw [List.drop_succ_cons, List.drop_left' hlen]
      simpa using herr

end Sys2Proof.Machine

/-! ## The whole block (42_system.md): the command that belongs to neither unit -/

namespace Sys2Proof.Machine

/-- Settles O22: the block's reply to NOP, live or aborted, is the block it found, delivered. -/
theorem nopDoesNothing : Obligations.NopDoesNothing :=
  ⟨rfl, fun _ hlive => exec_of_reply (replyNop_of_live hlive),
    fun _ hfatal => exec_of_reply (reply_of_fatal hfatal .nop)⟩

end Sys2Proof.Machine

/-! ## Exceptions (60_exceptions.md): what raises each condition, how long it lasts, and which one
decides the answer -/

namespace Sys2Proof.Machine

/-! ### An aborted block (R153) -/

/-- On an aborted block every word is refused alike, legal or not. -/
theorem blockStep_of_fatal {b : Block} (h : b.fatal = true) (w : CmdWord) :
    blockStep b w = .next (refuseFatal b) := by
  rw [blockStep]
  split
  · exact reply_of_fatal h _
  · exact unlessFatal_of_fatal h _

theorem blockStep_of_decode {w : CmdWord} {i : Instr} (h : decode w = .ok i) (b : Block) :
    blockStep b w = reply i b := by
  rw [blockStep, h]

theorem blockStep_of_decode_error {b : Block} (hlive : b.fatal = false) {w : CmdWord}
    {e : DecodeError} (h : decode w = .error e) : blockStep b w = .next (raise .illegalCmd b) := by
  rw [blockStep, h]
  exact unlessFatal_of_live hlive _

/-- A run delivers the block's answer to its first word and goes on with the rest. -/
theorem serve_of_blockStep {w : CmdWord} {s : State} {a : Block × Response} (ms : List HostInput)
    (h : blockStep s.toBlock w = .next a) : serve (.cmd w :: ms) s = serve ms (deliver s a) := by
  have hstep : step (setInputs (.cmd w :: ms) s) = .next (deliver (setInputs ms s) a) :=
    (step_of_command rfl).trans (atPort_of_next h)
  exact (serve_cons _ ms hstep rfl).trans (serve_setInputs ms ms (deliver s a))

theorem serve_of_fatal {s : State} (h : s.fatal = true) (ws : List CmdWord) :
    serve (ws.map .cmd) s =
      .next { s with inputs := [],
                     rsps := s.rsps ++ List.replicate ws.length { status := .fatal } } := by
  induction ws generalizing s with
  | nil => simp [serve_nil, setInputs]
  | cons w ws ih =>
    rw [List.map_cons, serve_of_blockStep _ (blockStep_of_fatal h w),
      ih (s := deliver s (refuseFatal s.toBlock)) h]
    simp [deliver, refuseFatal, respond, List.replicate_succ]

/-! ### CV.CFG by its widths (R153, R160) -/

theorem hasBadWidth_cvCfg_iff (pad : Bool) (f d : WidthField) :
    hasBadWidth (.cvCfg pad f d) = true ↔ ¬ (legalWidth f = true ∧ legalWidth d = true) := by
  simp only [hasBadWidth, Bool.or_eq_true, decide_eq_true_eq, legalWidth_iff]
  omega

/-- A live block is aborted by a CV.CFG with a bad width, and opens a conversion at any other. -/
theorem replyCvCfg_eq_ite {b : Block} (hlive : b.fatal = false) (pad : Bool) (f d : WidthField) :
    reply (.cvCfg pad f d) b =
      .next (if hasBadWidth (.cvCfg pad f d) then raise .badWidth b
        else respond {} (openConversion pad f d b)) := by
  simp only [replyCvCfg_of_live hlive, hasBadWidth_cvCfg_iff, ite_not, Bool.and_eq_true]

/-! ### CV.PUSH and CV.END outside phase RUN (R155, R160) -/

section OutsideRun

variable {b : Block} {i : Instr}

/-- R158 (4): the test of the phase comes before the own work of CV.PUSH and CV.END. -/
theorem reply_eq_whileRunning (hlive : b.fatal = false)
    (hi : i = .cvEnd ∨ ∃ byte, i = .cvPush byte) : ∃ work, reply i b = whileRunning b work := by
  obtain rfl | ⟨byte, rfl⟩ := hi
  · exact ⟨_, replyCvEnd_of_live hlive⟩
  · exact ⟨_, replyCvPush_of_live hlive byte⟩

theorem reply_of_no_conversion (hlive : b.fatal = false)
    (hi : i = .cvEnd ∨ ∃ byte, i = .cvPush byte) (hp : b.cvPhase = .idle ∨ b.cvPhase = .done) :
    reply i b = .next (raise .seqError b) := by
  obtain ⟨work, hreply⟩ := reply_eq_whileRunning hlive hi
  rw [hreply, whileRunning]
  obtain hp | hp := hp <;> rw [hp]

theorem reply_of_errv (hlive : b.fatal = false) (hi : i = .cvEnd ∨ ∃ byte, i = .cvPush byte)
    (hp : b.cvPhase = .errv) :
    reply i b = .next (respond { status := .invalidInputValue, errval := b.cvErrval } b) := by
  obtain ⟨work, hreply⟩ := reply_eq_whileRunning hlive hi
  rw [hreply, whileRunning, hp]

theorem reply_of_errp (hlive : b.fatal = false) (hi : i = .cvEnd ∨ ∃ byte, i = .cvPush byte)
    (hp : b.cvPhase = .errp) : reply i b = .next (respond { status := .invalidPadding } b) := by
  obtain ⟨work, hreply⟩ := reply_eq_whileRunning hlive hi
  rw [hreply, whileRunning, hp]

end OutsideRun

/-- In phase RUN the answer of CV.PUSH and CV.END is that of their own work; outside it they leave
the block as it was. -/
theorem whileRunning_run_or_unchanged {b : Block} {a answer : Block × Response}
    (h : whileRunning b (.next answer) = .next a) :
    (b.cvPhase = .run ∧ converterFault b = none ∧ a = answer) ∨ (b.cvPhase ≠ .run ∧ a.1 = b) := by
  obtain ⟨hp | hp, rfl⟩ | ⟨hp, rfl⟩ | ⟨hp, rfl⟩ | ⟨hrun, hok, heq⟩ := whileRunning_next h
  · exact .inr ⟨by simp [hp], rfl⟩
  · exact .inr ⟨by simp [hp], rfl⟩
  · exact .inr ⟨by simp [hp], rfl⟩
  · exact .inr ⟨by simp [hp], rfl⟩
  · cases heq
    exact .inl ⟨hrun, hok, rfl⟩

/-! ### The padding test (R152) -/

/-- With a buffer that the rules speak of the leftover group is 0 exactly when the buffer is. -/
theorem paddingFails_iff_leftover {b : Block} (hok : converterFault b = none) :
    paddingFails b.cvFrom.toNat b.cvTo.toNat b.cvAcc.toNat b.cvBits.toNat = true ↔
      b.cvFrom.toNat ≤ b.cvBits.toNat ∨ b.cvAcc ≠ 0#7 := by
  obtain ⟨-, -, hbits, hacc⟩ := converterFault_eq_none.1 hok
  obtain ⟨hgroup, -⟩ := lastGroup_eq_mul hbits.le hacc
  simp [paddingFails, hgroup, BitVec.toNat_eq]

/-- Without padding the leftover bits decide how a conversion ends. -/
theorem endConversion_of_no_pad {b : Block} (hok : converterFault b = none)
    (hpad : b.cvPad = false) :
    endConversion b =
      if b.cvFrom.toNat ≤ b.cvBits.toNat ∨ b.cvAcc ≠ 0#7 then raise .invalidPadding b
      else respond {} (setPhase .done b) := by
  simp only [← paddingFails_iff_leftover hok, endConversion, hpad, Bool.false_eq_true, if_false]

/-! ### The phase after a command (R163) -/

theorem pushValue_cvPhase (byte : Byte) (b : Block) :
    (pushValue byte b).1.cvPhase =
      if 2 ^ b.cvFrom.toNat ≤ byte.toNat then .errv else b.cvPhase := by
  split
  · rw [pushValue_of_too_wide ‹_›]
    rfl
  · rw [pushValue_of_fits (by omega)]
    rfl

theorem endConversion_cvPhase {b : Block} (hok : converterFault b = none) :
    (endConversion b).1.cvPhase =
      if b.cvPad = false ∧ (b.cvFrom.toNat ≤ b.cvBits.toNat ∨ b.cvAcc ≠ 0#7)
        then .errp else .done := by
  cases hpad : b.cvPad with
  | true =>
    rw [endConversion_of_pad hpad]
    rfl
  | false =>
    rw [endConversion_of_no_pad hok hpad, apply_ite Prod.fst, apply_ite Block.cvPhase]
    simp [raise]

/-! ### The answer that the tests decide (R158) -/

/-- Under the invariant the block answers every word. -/
theorem blockStep_answers {b : Block} (hinv : b.Inv) (w : CmdWord) :
    ∃ a, blockStep b w = .next a := by
  rw [blockStep]
  split
  · obtain ⟨a, hreply, -⟩ := reply_answers hinv _
    exact ⟨a, hreply⟩
  · rw [replyIllegalWord, unlessFatal]
    split <;> exact ⟨_, rfl⟩

section Status

variable {b : Block} {i : Instr} {a : Block × Response} (hlive : b.fatal = false)
  (hreply : reply i b = .next a)

include hlive hreply

theorem status_of_not_isBwc (hi : isBwc i = false) : a.2.status = .ok := by
  by_cases hinit : i = .ckInit
  · subst hinit
    cases (replyCkInit_of_live hlive).symm.trans hreply
    rfl
  · obtain ⟨r, hr, heq⟩ := reply_of_engine_command hi hinit hlive
    cases heq.symm.trans hreply
    exact hr

/-- R158 (4), (5): the status of CV.PUSH and CV.END outside phase RUN. -/
theorem status_outside_run (hi : i = .cvEnd ∨ ∃ byte, i = .cvPush byte) :
    (b.cvPhase = .idle ∨ b.cvPhase = .done → a.2.status = .seqError) ∧
    (b.cvPhase = .errv → a.2.status = .invalidInputValue ∧ a.2.errval = b.cvErrval) ∧
    (b.cvPhase = .errp → a.2.status = .invalidPadding) := by
  refine ⟨fun hp => ?_, fun hp => ?_, fun hp => ?_⟩
  · cases (reply_of_no_conversion hlive hi hp).symm.trans hreply
    rfl
  · cases (reply_of_errv hlive hi hp).symm.trans hreply
    exact ⟨rfl, rfl⟩
  · cases (reply_of_errp hlive hi hp).symm.trans hreply
    rfl

end Status

/-! ### The obligations of 60_exceptions.md -/

/-- Settles O15: the abort is CV.CFG's second case, and an aborted block refuses each word of a run
and stays aborted. -/
theorem badWidthAbortsTheBlockUntilReset : Obligations.BadWidthAbortsTheBlockUntilReset := by
  refine ⟨fun s pad f d hlive hbad => ?_, fun s ws hfatal => serve_of_fatal hfatal ws⟩
  obtain ⟨-, -, haborts⟩ := cvCfgOpensAConversionOrAborts s pad f d hlive
  exact haborts (by omega)

/-- Settles O16: in phase RUN the reply is the push, which raises the condition. -/
theorem tooWideValueEntersErrv : Obligations.TooWideValueEntersErrv := by
  intro s byte hlive hrun hinv hwide
  have hexec := exec_of_reply (replyCvPush_of_run hlive hrun hinv byte)
  rwa [pushValue_of_too_wide hwide] at hexec

/-- Settles O17: in phase RUN the reply is the end, whose test the leftover bits fail. -/
theorem badPaddingEntersErrp : Obligations.BadPaddingEntersErrp := by
  intro s hlive hrun hinv hpad hleft
  have hexec := exec_of_reply (replyCvEnd_of_run hlive hrun hinv)
  rwa [endConversion_of_no_pad (hinv.converterFault_none (by simp [hrun])) hpad,
    if_pos hleft] at hexec

/-- Settles O18: both commands raise SeqError, which writes nothing. -/
theorem converterRefusesWithoutAnOpenConversion :
    Obligations.ConverterRefusesWithoutAnOpenConversion :=
  fun _ _ hlive hp hi => exec_of_reply (reply_of_no_conversion hlive hi hp)

/-- Settles O19: the status sticks to CV.PUSH and CV.END, and a CV.CFG with legal widths opens a
conversion in any phase. -/
theorem inputErrorsStickUntilTheNextConversion :
    Obligations.InputErrorsStickUntilTheNextConversion := by
  refine ⟨fun s i hlive hi => ⟨fun hp => ?_, fun hp => ?_⟩, fun s t pad f d hlive hbad _ h => ?_⟩
  · exact exec_of_reply (reply_of_errv hlive hi hp)
  · exact exec_of_reply (reply_of_errp hlive hi hp)
  · have hopens := exec_of_reply (replyCvCfg_eq_ite hlive pad f d)
    rw [hbad] at hopens
    cases hopens.symm.trans h
    exact ⟨rfl, rfl, rfl, rfl⟩

/-- Settles O20: under the invariant the block answers the word, and each test that applies, with
none before it, fixes what that answer is. -/
theorem firstConditionThatAppliesDecidesTheStatus :
    Obligations.FirstConditionThatAppliesDecidesTheStatus := by
  intro s w rest hinv hin
  obtain ⟨a, hanswer⟩ := blockStep_answers hinv w
  refine ⟨_, a.2, (step_of_command hin).trans (atPort_of_next hanswer), rfl,
    fun hfatal => ?_, fun hlive e he => ?_, fun hlive i hdecode => ?_⟩
  · cases (blockStep_of_fatal hfatal w).symm.trans hanswer
    rfl
  · cases (blockStep_of_decode_error hlive he).symm.trans hanswer
    rfl
  · have hreply := (blockStep_of_decode hdecode s.toBlock).symm.trans hanswer
    refine ⟨status_of_not_isBwc hlive hreply, ?_, ?_, ?_⟩
    · rintro pad f d rfl
      cases (replyCvCfg_eq_ite hlive pad f d).symm.trans hreply
      split <;> rfl
    · rintro byte rfl
      obtain ⟨hnone, herrv, herrp⟩ := status_outside_run hlive hreply (.inr ⟨byte, rfl⟩)
      refine ⟨hnone, herrv, herrp, fun hrun hwide => ?_, fun hrun hfits => ?_⟩
      · cases (replyCvPush_of_run hlive hrun hinv byte).symm.trans hreply
        rw [pushValue_of_too_wide hwide]
        exact ⟨rfl, rfl⟩
      · cases (replyCvPush_of_run hlive hrun hinv byte).symm.trans hreply
        rw [pushValue_of_fits hfits]
        rfl
    · rintro rfl
      obtain ⟨hnone, herrv, herrp⟩ := status_outside_run hlive hreply (.inl rfl)
      refine ⟨hnone, herrv, herrp, fun hrun hpad => ?_, fun hrun hpad => ?_⟩
      · cases (replyCvEnd_of_run hlive hrun hinv).symm.trans hreply
        rw [endConversion_of_pad hpad]
        rfl
      · cases (replyCvEnd_of_run hlive hrun hinv).symm.trans hreply
        rw [endConversion_of_no_pad (hinv.converterFault_none (by simp [hrun])) hpad]
        split <;> rfl

/-- Settles O21: outside the converter a command does not write the phase, and each of its commands
writes what its reply says. -/
theorem phaseMovesAsTheTableSays : Obligations.PhaseMovesAsTheTableSays := by
  intro s t i h
  obtain ⟨a, hreply, rfl⟩ := exec_next.1 h
  rw [deliver_toBlock]
  refine ⟨fun hfatal => ?_, fun hlive => ⟨fun hi => ?_, ?_, ?_, ?_⟩⟩
  · cases (reply_of_fatal hfatal i).symm.trans hreply
    rfl
  · by_contra hne
    exact absurd ((writes_of_reply hreply).phase_writers hne) (by simp [hi])
  · rintro pad f d rfl
    cases (replyCvCfg_eq_ite hlive pad f d).symm.trans hreply
    split <;> rfl
  · rintro byte rfl
    obtain ⟨hrun, -, rfl⟩ | ⟨hp, heq⟩ :=
      whileRunning_run_or_unchanged ((replyCvPush_of_live hlive byte).symm.trans hreply)
    · simp [pushValue_cvPhase, hrun]
    · simp [heq, hp]
  · rintro rfl
    obtain ⟨hrun, hok, rfl⟩ | ⟨hp, heq⟩ :=
      whileRunning_run_or_unchanged ((replyCvEnd_of_live hlive).symm.trans hreply)
    · rw [if_pos hrun, endConversion_cvPhase hok]
    · rw [if_neg hp, heq]

end Sys2Proof.Machine

/-! ## Reset and hazards (70_reset_and_hazards.md): what reset alone does, that every move of the host
is served, and runs -/

namespace Sys2Proof.Machine

/-! ### One step -/

theorem step_of_reset {s : State} {rest : List HostInput} (h : s.inputs = .rst :: rest) :
    step s = .next (applyReset (setInputs rest s)) := by
  simp [step, h]

/-- A word leaves the block one that its command may leave; a word that is no command writes nothing. -/
theorem blockStep_cases {b : Block} {w : CmdWord} {a : Block × Response}
    (h : blockStep b w = .next a) : (∃ i, decode w = .ok i ∧ Writes i b a.1) ∨ a.1 = b := by
  cases hd : decode w with
  | ok i => exact .inl ⟨i, rfl, writes_of_reply ((blockStep_of_decode hd b).symm.trans h)⟩
  | error e =>
    cases hf : b.fatal with
    | true =>
      cases (blockStep_of_fatal hf w).symm.trans h
      exact .inr rfl
    | false =>
      cases (blockStep_of_decode_error hf hd).symm.trans h
      exact .inr rfl

theorem writes_of_blockStep {b : Block} {w : CmdWord} {a : Block × Response}
    (h : blockStep b w = .next a) : ∃ i, Writes i b a.1 := by
  obtain ⟨i, -, hwrites⟩ | heq := blockStep_cases h
  · exact ⟨i, hwrites⟩
  · exact ⟨.nop, heq ▸ .nothing .nop b⟩

/-- A step that is not a reset writes what some command may write: waiting and refusing a word write
nothing, as NOP does. -/
theorem writes_of_step {s t : State} (hrst : s.inputs.head? ≠ some .rst) (h : step s = .next t) :
    ∃ i, Writes i s.toBlock t.toBlock := by
  rcases hin : s.inputs with _ | ⟨_ | _, rest⟩
  · cases (step_of_no_input hin).symm.trans h
    exact ⟨.nop, .nothing .nop _⟩
  · obtain ⟨a, hanswer, rfl⟩ := atPort_next.1 ((step_of_command hin).symm.trans h)
    exact writes_of_blockStep hanswer
  · exact absurd (by simp [hin]) hrst

/-! ### What only reset does (R180) -/

theorem Writes.fatal_kept {i : Instr} {b c : Block} (h : Writes i b c) (hfatal : b.fatal = true) :
    c.fatal = true := by
  by_contra hne
  obtain ⟨-, habort⟩ := h.fatal_writers fun heq => hne (heq.trans hfatal)
  exact hne habort

/-- CV.CFG, CV.PUSH and CV.END write every phase but IDLE, and no other command writes the phase. -/
theorem Writes.idle_before {i : Instr} {b c : Block} (h : Writes i b c)
    (hidle : c.cvPhase = .idle) : b.cvPhase = .idle := by
  cases h with
  | opened | tooWide | ended | badPadding => simp at hidle
  | _ => exact hidle

/-! ### Runs (R191) -/

/-- The block is aborted after a word exactly when it was before or the word is a CV.CFG
with a bad width. -/
theorem fatal_after_blockStep {b : Block} {w : CmdWord} {a : Block × Response}
    (h : blockStep b w = .next a) :
    a.1.fatal = true ↔ b.fatal = true ∨ ∃ i, decode w = .ok i ∧ hasBadWidth i = true := by
  cases hf : b.fatal with
  | true =>
    obtain ⟨i, hwrites⟩ := writes_of_blockStep h
    simp [hwrites.fatal_kept hf]
  | false =>
    simp only [Bool.false_eq_true, false_or]
    refine ⟨fun habort => ?_, ?_⟩
    · obtain ⟨i, hdecode, hwrites⟩ | heq := blockStep_cases h
      · obtain ⟨hbad, -⟩ := hwrites.fatal_writers (by simp [habort, hf])
        exact ⟨i, hdecode, hbad⟩
      · simp [heq, hf] at habort
    · rintro ⟨_ | _, hdecode, hbad⟩
      case cvCfg pad f d =>
        have hreply := replyCvCfg_eq_ite hf pad f d
        rw [if_pos hbad] at hreply
        cases (hreply.symm.trans (blockStep_of_decode hdecode b).symm).trans h
        rfl
      all_goals cases hbad

theorem fatal_after_blockRun {ws : List CmdWord} {b final : Block} {rs : List Response}
    (h : blockRun ws b = .next (final, rs)) :
    final.fatal = true ↔
      b.fatal = true ∨ ∃ w ∈ ws, ∃ i, decode w = .ok i ∧ hasBadWidth i = true := by
  induction ws generalizing b rs with
  | nil =>
    cases h
    simp
  | cons w ws ih =>
    obtain ⟨a, rest, hstep, hrest, -⟩ := blockRun_cons.1 h
    simp only [ih hrest, fatal_after_blockStep hstep, or_assoc, List.mem_cons, exists_eq_or_imp]

/-- Under the invariant a run is answered to its end, and ends under the invariant. -/
theorem blockRun_answers {b : Block} (hinv : b.Inv) (ws : List CmdWord) :
    ∃ final rs, blockRun ws b = .next (final, rs) ∧ final.Inv := by
  induction ws generalizing b with
  | nil => exact ⟨b, [], rfl, hinv⟩
  | cons w ws ih =>
    obtain ⟨a, hanswer⟩ := blockStep_answers hinv w
    obtain ⟨i, hwrites⟩ := writes_of_blockStep hanswer
    obtain ⟨final, rs, hrun, hfinal⟩ := ih (hwrites.inv hinv)
    exact ⟨final, a.2 :: rs, blockRun_cons.2 ⟨a, rs, hanswer, hrun, rfl⟩, hfinal⟩

/-- Serving words at the port is the block's run of them, its responses given one after another. -/
theorem serve_of_blockRun {ws : List CmdWord} {s : State} {final : Block} {rs : List Response}
    (h : blockRun ws s.toBlock = .next (final, rs)) :
    serve (ws.map .cmd) s = .next { toBlock := final, inputs := [], rsps := s.rsps ++ rs } := by
  induction ws generalizing s rs with
  | nil =>
    cases h
    simp [serve_nil, setInputs]
  | cons w ws ih =>
    obtain ⟨a, rest, hstep, hrest, rfl⟩ := blockRun_cons.1 h
    rw [List.map_cons, serve_of_blockStep _ hstep, ih (s := deliver s a) hrest]
    simp

/-! ### The obligations of 70_reset_and_hazards.md -/

/-- Settles O10: reset puts in the reset block, and every other step makes the register writes of
some command, none of which clears `fatal` or reaches IDLE. -/
theorem onlyResetClearsFatalAndReachesIdle :
    Obligations.OnlyResetClearsFatalAndReachesIdle := by
  refine ⟨fun s rest hin => ⟨s.rsps, step_of_reset hin⟩, fun s t hrst h => ?_⟩
  obtain ⟨i, hwrites⟩ := writes_of_step hrst h
  exact ⟨hwrites.fatal_kept, hwrites.idle_before⟩

/-- Settles O12: without a move the block waits, a reset is always served, and a word is answered
under the invariant. -/
theorem noStepStopsUnderTheInvariant : Obligations.NoStepStopsUnderTheInvariant := by
  intro s hinv
  rcases hin : s.inputs with _ | ⟨w | _, rest⟩
  · exact ⟨s, step_of_no_input hin⟩
  · obtain ⟨a, hanswer⟩ := blockStep_answers hinv w
    exact ⟨_, (step_of_command hin).trans (atPort_of_next hanswer)⟩
  · exact ⟨_, step_of_reset hin⟩

/-- Settles O14: the reset block meets the invariant and is live, so its run is answered to the end
and only a bad width aborts it. -/
theorem runFromResetGoesWrongExactlyByABadWidth :
    Obligations.RunFromResetGoesWrongExactlyByABadWidth := by
  intro ws
  obtain ⟨final, rs, hrun, -⟩ := blockRun_answers Block.reset_inv ws
  refine ⟨_, serve_of_blockRun (s := State.reset) hrun, ?_⟩
  simpa [GoneWrong, Block.reset] using fatal_after_blockRun hrun

/-- Settles O55: the block's run is answered to its end under the invariant, and serving the words at
the port is that run. -/
theorem runAtThePortIsTheBlocksRun : Obligations.RunAtThePortIsTheBlocksRun := by
  intro s ws hinv
  obtain ⟨final, rs, hrun, hfinal⟩ := blockRun_answers hinv ws
  exact ⟨final, rs, hrun, blockRun_length hrun, hfinal, serve_of_blockRun hrun⟩

end Sys2Proof.Machine
